-- ==== Sys2Proof/Word.lean ====
section
/-! DEFINITION. The data types of 00_scope.md rule R6: bytes and halfwords, and the size of the address space. -/

namespace Sys2Proof

/-- 8 bits (00_scope.md rule R6). -/
abbrev Byte := BitVec 8

/-- 16 bits: the width of every register, of every address, of every data operation and of every
instruction (00_scope.md rule R6).  The manual calls this a halfword. -/
abbrev Word := BitVec 16

/-- The number of byte addresses, 2^16 (20_memory.md rule R50). -/
abbrev addressSpace : Nat := 65536

end Sys2Proof
end

