-- ==== Sys2Proof/Syntax.lean ====
section
/-! DEFINITION. The instructions of spec/opcode_table.json: one constructor per row (30_encoding.md rule R91). -/

namespace Sys2Proof

/-- A 3-bit register field: value n names Rn, n in 0 .. 7 (10_state.md rule R22, 30_encoding.md rule R90). -/
abbrev LowReg := Fin 8

/-- A 4-bit register number, `H1 : Rd` or `H2 : Rs`, naming R0 to R15 (30_encoding.md rule R90). -/
abbrev Reg := Fin 16

/-- The register a low-register field names (30_encoding.md rule R90). -/
abbrev LowReg.toReg (r : LowReg) : Reg := ⟨r.val, Nat.lt_of_lt_of_le r.isLt (by decide)⟩

/-- R13, also known as the SP, by convention only (10_state.md rule R24). -/
abbrev Reg.sp : Reg := 13

/-- R14, also known as the LP, by convention only (10_state.md rule R24). -/
abbrev Reg.lp : Reg := 14

/-- R15, the program counter (10_state.md rule R26). -/
abbrev Reg.pc : Reg := 15

/-- The fourteen branch conditions (42_branch.md rule R151). -/
inductive Cond where
  | eq | ne | cs | cc | mi | pl | vs | vc | hi | ls | ge | lt | gt | le
  deriving DecidableEq, Repr

/-- The defined instructions, one constructor for each of the 32 rows of spec/opcode_table.json, in the
table's order (30_encoding.md rule R91).  A first register argument is Rd (or `H1 : Rd`), a second one Rs
(or `H2 : Rs`, or Rb). -/
inductive Instr where
  /-- `HALT` (43_misc.md rule R160). -/
  | halt
  /-- `MOV(1) Rd, #Immediate8` (40_data_processing.md rule R122). -/
  | mov1 (rd : LowReg) (imm : BitVec 8)
  /-- `CMP(1) Rd, #Immediate8` (40_data_processing.md rule R114). -/
  | cmp1 (rd : LowReg) (imm : BitVec 8)
  /-- `AND Rd, Rs` (40_data_processing.md rule R112). -/
  | and (rd rs : LowReg)
  /-- `EOR Rd, Rs` (40_data_processing.md rule R120). -/
  | eor (rd rs : LowReg)
  /-- `ASR Rd, Rs` (40_data_processing.md rule R113). -/
  | asr (rd rs : LowReg)
  /-- `TST Rd, Rs` (40_data_processing.md rule R125). -/
  | tst (rd rs : LowReg)
  /-- `NEG Rd, Rs` (40_data_processing.md rule R124). -/
  | neg (rd rs : LowReg)
  /-- `CMP(2) Rd, Rs`, two low registers (40_data_processing.md rule R115). -/
  | cmp2 (rd rs : LowReg)
  /-- `ADD(1) Rd, Rs`, any registers (40_data_processing.md rule R110). -/
  | add1 (rd rs : Reg)
  /-- `CMP(3) Rd, Rs`, row 1 of 2: H1 = 1, the first register is a high one or the PC
  (40_data_processing.md rule R116). -/
  | cmp3H1 (rd rs : Reg)
  /-- `CMP(3) Rd, Rs`, row 2 of 2: H1 = 0 and H2 = 1, only the second register is a high one or the PC
  (40_data_processing.md rule R116). -/
  | cmp3H2 (rd rs : Reg)
  /-- `MOV(2) Rd, Rs`, any registers (40_data_processing.md rule R123). -/
  | mov2 (rd rs : Reg)
  /-- `STR Rd, [Rb, #Imm5<<2]` (41_load_store.md rule R142). -/
  | str (rd rb : LowReg) (imm : BitVec 5)
  /-- `LDR Rd, [Rb, #Imm5<<2]` (41_load_store.md rule R140). -/
  | ldr (rd rb : LowReg) (imm : BitVec 5)
  /-- `STRB Rd, [Rb, #Imm5]` (41_load_store.md rule R143). -/
  | strb (rd rb : LowReg) (imm : BitVec 5)
  /-- `LDRB Rd, [Rb, #Imm5]` (41_load_store.md rule R141). -/
  | ldrb (rd rb : LowReg) (imm : BitVec 5)
  /-- `ADD(2) Rd, PC, #Immediate8<<2` (40_data_processing.md rule R111). -/
  | add2 (rd : LowReg) (imm : BitVec 8)
  /-- `Beq` (42_branch.md rules R150 and R151), as are the thirteen after it. -/
  | beq (off : BitVec 8)
  | bne (off : BitVec 8)
  | bcs (off : BitVec 8)
  | bcc (off : BitVec 8)
  | bmi (off : BitVec 8)
  | bpl (off : BitVec 8)
  | bvs (off : BitVec 8)
  | bvc (off : BitVec 8)
  | bhi (off : BitVec 8)
  | bls (off : BitVec 8)
  | bge (off : BitVec 8)
  | blt (off : BitVec 8)
  | bgt (off : BitVec 8)
  | ble (off : BitVec 8)
  deriving DecidableEq, Repr

end Sys2Proof
end

