-- ==== Sys2Proof/WellFormed.lean ====
section
/-! DEFINITION. Which terms of `Instr` are instructions of PAW: the operand types hold every bound but CMP(3)'s. -/

namespace Sys2Proof

/-- CMP(3) needs a high register, and its two table rows part by which one it is: row 1 has H1 = 1, row 2 has
H1 = 0 and H2 = 1 (30_encoding.md rules R91 and R94, 40_data_processing.md rule R116).  Every value of every
other operand type is an operand the encoding admits (30_encoding.md rules R89 and R90). -/
def Instr.wellFormed : Instr → Bool
  | .cmp3H1 rd _ => decide (8 ≤ rd.val)
  | .cmp3H2 rd rs => decide (rd.val < 8) && decide (8 ≤ rs.val)
  | .halt => true
  | .mov1 _ _ => true
  | .cmp1 _ _ => true
  | .and _ _ => true
  | .eor _ _ => true
  | .asr _ _ => true
  | .tst _ _ => true
  | .neg _ _ => true
  | .cmp2 _ _ => true
  | .add1 _ _ => true
  | .mov2 _ _ => true
  | .str _ _ _ => true
  | .ldr _ _ _ => true
  | .strb _ _ _ => true
  | .ldrb _ _ _ => true
  | .add2 _ _ => true
  | .beq _ => true
  | .bne _ => true
  | .bcs _ => true
  | .bcc _ => true
  | .bmi _ => true
  | .bpl _ => true
  | .bvs _ => true
  | .bvc _ => true
  | .bhi _ => true
  | .bls _ => true
  | .bge _ => true
  | .blt _ => true
  | .bgt _ => true
  | .ble _ => true

end Sys2Proof
end

