-- ==== Sys2Proof/Decode.lean ====
section
/-! DEFINITION. Decoding (30_encoding.md rules R80 to R98), total on any bytes and rejecting by name; then the
encoder, from the same rules. -/

namespace Sys2Proof

/-- Why bits are no instruction.  All but the last are the rows of 30_encoding.md rule R92. -/
inductive Undefined where
  /-- 0001-00FF: Format 0, OP = 0, the unused field is not 0 (rule R93). -/
  | haltUnusedField
  /-- 0100-1FFF: Format 0, OP = 1 to 31. -/
  | format0Op
  /-- 3000-3FFF: Format 3, OP = 2, 3. -/
  | format3Op
  /-- 4180-43FF: Format 4, OP = 6 to 15. -/
  | format4Op
  /-- 4500-453F: Format 5, CMP with H1 = H2 = 0 (rule R94). -/
  | cmpBothLow
  /-- 4700-47FF: Format 5, OP = 3. -/
  | format5Op
  /-- A800-AFFF: Format 12, SP = 1 (rule R96). -/
  | format12Sp
  /-- DE00-DFFF: Format 16, Cond = 1110, 1111 (rule R95). -/
  | condition
  /-- 4800-5FFF, 8000-9FFF, B000-BFFF, C000-CFFF, E000-FFFF: no format. -/
  | noFormat
  /-- Fewer than the two bytes of an instruction (rule R80); no fetch asks for this. -/
  | tooFewBytes
  deriving DecidableEq, Repr

/-- The `len` bits of `w` from bit `lo` up, as a number (bit numbering: 00_scope.md rule R8). -/
def bitsOf (w : Word) (lo len : Nat) : Nat := (w.extractLsb' lo len).toNat

/-- The 3-bit register field at bits `lo + 2 : lo` (30_encoding.md rule R90). -/
def lowField (w : Word) (lo : Nat) : LowReg := (w.extractLsb' lo 3).toFin

/-- A Format 5 register number: the H bit at bit `h`, then the 3-bit field from bit `lo` up
(30_encoding.md rule R90). -/
def regField (w : Word) (h lo : Nat) : Reg := (w.extractLsb' h 1 ++ w.extractLsb' lo 3 : BitVec 4).toFin

/-- The 8-bit field at bits 7:0: Immediate8 or the branch offset (30_encoding.md rule R89). -/
def field8 (w : Word) : BitVec 8 := w.extractLsb' 0 8

/-- Imm5, bits 10:6 (30_encoding.md rule R86). -/
def field5 (w : Word) : BitVec 5 := w.extractLsb' 6 5

/-- Format 0 (30_encoding.md rules R82 and R93): only the all-zero halfword is HALT. -/
def decodeFormat0 (w : Word) : Except Undefined Instr :=
  if bitsOf w 8 5 ≠ 0 then .error .format0Op
  else if bitsOf w 0 8 ≠ 0 then .error .haltUnusedField
  else .ok .halt

/-- Format 3 (30_encoding.md rule R83). -/
def decodeFormat3 (w : Word) : Except Undefined Instr :=
  match bitsOf w 11 2 with
  | 0 => .ok (.mov1 (lowField w 8) (field8 w))
  | 1 => .ok (.cmp1 (lowField w 8) (field8 w))
  | _ => .error .format3Op

/-- Format 4 (30_encoding.md rule R84). -/
def decodeFormat4 (w : Word) : Except Undefined Instr :=
  match bitsOf w 6 4 with
  | 0 => .ok (.and (lowField w 0) (lowField w 3))
  | 1 => .ok (.eor (lowField w 0) (lowField w 3))
  | 2 => .ok (.asr (lowField w 0) (lowField w 3))
  | 3 => .ok (.tst (lowField w 0) (lowField w 3))
  | 4 => .ok (.neg (lowField w 0) (lowField w 3))
  | 5 => .ok (.cmp2 (lowField w 0) (lowField w 3))
  | _ => .error .format4Op

/-- Format 5 (30_encoding.md rules R85 and R94): H1 is bit 7, H2 bit 6. -/
def decodeFormat5 (w : Word) : Except Undefined Instr :=
  match bitsOf w 8 2 with
  | 0 => .ok (.add1 (regField w 7 0) (regField w 6 3))
  | 1 =>
    if bitsOf w 7 1 = 1 then .ok (.cmp3H1 (regField w 7 0) (regField w 6 3))
    else if bitsOf w 6 1 = 1 then .ok (.cmp3H2 (regField w 7 0) (regField w 6 3))
    else .error .cmpBothLow
  | 2 => .ok (.mov2 (regField w 7 0) (regField w 6 3))
  | _ => .error .format5Op

/-- Format 9 (30_encoding.md rule R86): bit 12 is B, bit 11 is L. -/
def decodeFormat9 (w : Word) : Except Undefined Instr :=
  match bitsOf w 11 2 with
  | 0 => .ok (.str (lowField w 0) (lowField w 3) (field5 w))
  | 1 => .ok (.ldr (lowField w 0) (lowField w 3) (field5 w))
  | 2 => .ok (.strb (lowField w 0) (lowField w 3) (field5 w))
  | _ => .ok (.ldrb (lowField w 0) (lowField w 3) (field5 w))

/-- Format 12 (30_encoding.md rules R87 and R96): bit 11 is SP; bit 12 set is no format. -/
def decodeFormat12 (w : Word) : Except Undefined Instr :=
  match bitsOf w 11 2 with
  | 0 => .ok (.add2 (lowField w 8) (field8 w))
  | 1 => .error .format12Sp
  | _ => .error .noFormat

/-- The branch with condition number `c` (30_encoding.md rules R88 and R95, 42_branch.md rule R151). -/
def decodeCond (c : Nat) (off : BitVec 8) : Except Undefined Instr :=
  match c with
  | 0 => .ok (.beq off)
  | 1 => .ok (.bne off)
  | 2 => .ok (.bcs off)
  | 3 => .ok (.bcc off)
  | 4 => .ok (.bmi off)
  | 5 => .ok (.bpl off)
  | 6 => .ok (.bvs off)
  | 7 => .ok (.bvc off)
  | 8 => .ok (.bhi off)
  | 9 => .ok (.bls off)
  | 10 => .ok (.bge off)
  | 11 => .ok (.blt off)
  | 12 => .ok (.bgt off)
  | 13 => .ok (.ble off)
  | _ => .error .condition

/-- Format 16 (30_encoding.md rule R88): bits 15:13 = 110 need bit 12 = 1. -/
def decodeFormat16 (w : Word) : Except Undefined Instr :=
  if bitsOf w 12 1 = 1 then decodeCond (bitsOf w 8 4) (field8 w) else .error .noFormat

/-- The decoder, by the procedure of 30_encoding.md rule R98: a total function from halfwords to one
instruction of rule R91 or the reason why there is none. -/
def decodeHalfword (w : Word) : Except Undefined Instr :=
  match bitsOf w 13 3 with
  | 0 => decodeFormat0 w
  | 1 => decodeFormat3 w
  | 2 =>
    if bitsOf w 11 2 = 0 then
      if bitsOf w 10 1 = 0 then decodeFormat4 w else decodeFormat5 w
    else .error .noFormat
  | 3 => decodeFormat9 w
  | 5 => decodeFormat12 w
  | 6 => decodeFormat16 w
  | _ => .error .noFormat

/-- The halfword whose byte at the lower address is `lo` and at the next one `hi`: little-endian
(20_memory.md rules R52 and R55). -/
def halfwordOf (lo hi : Byte) : Word := hi ++ lo

/-- Decode the first instruction of a byte sequence and answer the bytes after it; every instruction has two
bytes (30_encoding.md rule R80), the lower-addressed one holding bits 7:0 (20_memory.md rule R55). -/
def decodeBytes : List Byte → Except Undefined (Instr × List Byte)
  | lo :: hi :: rest =>
    match decodeHalfword (halfwordOf lo hi) with
    | .ok i => .ok (i, rest)
    | .error e => .error e
  | _ => .error .tooFewBytes

/-! ### The encoder -/

/-- A low register's 3-bit field. -/
def lowBits (r : LowReg) : BitVec 3 := BitVec.ofNat 3 r.val

/-- The H bit of a register number: bit 3 of it (30_encoding.md rule R90). -/
def hBit (r : Reg) : BitVec 1 := BitVec.ofNat 1 (r.val / 8)

/-- The remaining three bits of a register number (30_encoding.md rule R90). -/
def restBits (r : Reg) : BitVec 3 := BitVec.ofNat 3 (r.val % 8)

/-- Format 3: 001 OP Rd Immediate8 (30_encoding.md rule R83). -/
def encodeFormat3 (op : BitVec 2) (rd : LowReg) (imm : BitVec 8) : Word := 0b001#3 ++ op ++ lowBits rd ++ imm

/-- Format 4: 010000 OP Rs Rd (30_encoding.md rule R84). -/
def encodeFormat4 (op : BitVec 4) (rd rs : LowReg) : Word := 0b010000#6 ++ op ++ lowBits rs ++ lowBits rd

/-- Format 5: 010001 OP H1 H2 Rs Rd (30_encoding.md rule R85). -/
def encodeFormat5 (op : BitVec 2) (rd rs : Reg) : Word :=
  0b010001#6 ++ op ++ hBit rd ++ hBit rs ++ restBits rs ++ restBits rd

/-- Format 9: 011 B L Imm5 Rb Rd (30_encoding.md rule R86). -/
def encodeFormat9 (b l : BitVec 1) (rd rb : LowReg) (imm : BitVec 5) : Word :=
  0b011#3 ++ b ++ l ++ imm ++ lowBits rb ++ lowBits rd

/-- Format 12 with SP = 0: 1010 0 Rd Immediate8 (30_encoding.md rule R87). -/
def encodeFormat12 (rd : LowReg) (imm : BitVec 8) : Word := 0b1010#4 ++ 0b0#1 ++ lowBits rd ++ imm

/-- Format 16: 1101 Cond offset (30_encoding.md rule R88). -/
def encodeFormat16 (cond : BitVec 4) (off : BitVec 8) : Word := 0b1101#4 ++ cond ++ off

/-- The halfword that encodes an instruction (30_encoding.md rule R91); meant for well-formed ones. -/
def encode : Instr → Word
  | .halt => 0x0000#16
  | .mov1 rd imm => encodeFormat3 0b00#2 rd imm
  | .cmp1 rd imm => encodeFormat3 0b01#2 rd imm
  | .and rd rs => encodeFormat4 0b0000#4 rd rs
  | .eor rd rs => encodeFormat4 0b0001#4 rd rs
  | .asr rd rs => encodeFormat4 0b0010#4 rd rs
  | .tst rd rs => encodeFormat4 0b0011#4 rd rs
  | .neg rd rs => encodeFormat4 0b0100#4 rd rs
  | .cmp2 rd rs => encodeFormat4 0b0101#4 rd rs
  | .add1 rd rs => encodeFormat5 0b00#2 rd rs
  | .cmp3H1 rd rs => encodeFormat5 0b01#2 rd rs
  | .cmp3H2 rd rs => encodeFormat5 0b01#2 rd rs
  | .mov2 rd rs => encodeFormat5 0b10#2 rd rs
  | .str rd rb imm => encodeFormat9 0#1 0#1 rd rb imm
  | .ldr rd rb imm => encodeFormat9 0#1 1#1 rd rb imm
  | .strb rd rb imm => encodeFormat9 1#1 0#1 rd rb imm
  | .ldrb rd rb imm => encodeFormat9 1#1 1#1 rd rb imm
  | .add2 rd imm => encodeFormat12 rd imm
  | .beq off => encodeFormat16 0b0000#4 off
  | .bne off => encodeFormat16 0b0001#4 off
  | .bcs off => encodeFormat16 0b0010#4 off
  | .bcc off => encodeFormat16 0b0011#4 off
  | .bmi off => encodeFormat16 0b0100#4 off
  | .bpl off => encodeFormat16 0b0101#4 off
  | .bvs off => encodeFormat16 0b0110#4 off
  | .bvc off => encodeFormat16 0b0111#4 off
  | .bhi off => encodeFormat16 0b1000#4 off
  | .bls off => encodeFormat16 0b1001#4 off
  | .bge off => encodeFormat16 0b1010#4 off
  | .blt off => encodeFormat16 0b1011#4 off
  | .bgt off => encodeFormat16 0b1100#4 off
  | .ble off => encodeFormat16 0b1101#4 off

/-- The two bytes of an instruction in address order (20_memory.md rule R55). -/
def encodeBytes (i : Instr) : List Byte := [(encode i).extractLsb' 0 8, (encode i).extractLsb' 8 8]

/-- What the decoder reads from an instruction whose bits are `w`, bit 0 the least significant bit of the only
halfword: its two bytes, laid out little-endian and given to `decodeBytes`.  Bits from `nbits` up are 0. -/
def decodeTableWord (nbits w : Nat) : Option Instr :=
  let h := BitVec.ofNat 16 (w % 2 ^ nbits)
  match decodeBytes [h.extractLsb' 0 8, h.extractLsb' 8 8] with
  | .ok (i, _) => some i
  | .error _ => none

end Sys2Proof
end

