-- ==== Sys2Proof/Config.lean ====
section
/-! DEFINITION. What the manual leaves to the implementation or the system: the parameters of 00_scope.md
rule R7 as plain data, and the free values. -/

namespace Sys2Proof

/-- A contiguous set of byte addresses, `base` to `base + size - 1`.
`IO_REGION` and `MEM_POPULATED` are finite lists of these (00_scope.md rule R7). -/
structure Region where
  base : Nat
  size : Nat
  deriving DecidableEq, Repr

/-- `WRAP_POLICY` (20_memory.md rule R62): whether address arithmetic that leaves 0 .. 0xFFFF stops the
model or uses the value reduced modulo 2^16. -/
inductive WrapPolicy where
  /-- The model faults with `addressWrap`: enforces "Programs should not rely on this behavior". -/
  | strict
  /-- The reduced value is used: the behaviour the manual describes. -/
  | wrap
  deriving DecidableEq, Repr

/-- `UNALIGNED_POLICY` (20_memory.md rule R57, 41_load_store.md rules R140 and R142): what LDR and STR do at
an address that is not divisible by 4. -/
inductive UnalignedPolicy where
  /-- The model faults with `unalignedHalfword` (92_eei_decisions.md D4). -/
  | fault
  /-- The "weaker alternative" that rules R140 (LDR) and R142 (STR) name: LDR loads an arbitrary halfword, STR
  leaves the two bytes at the address and the next one arbitrary, and nothing else changes.  Not the setting at
  reset; DESIGN CHOICE, log 8. -/
  | arbitrary
  deriving DecidableEq, Repr

/-- The parameters of 00_scope.md rule R7 that a running machine consults.  They are fixed for a machine;
the model carries them in its state so that every statement about a state holds for every setting. -/
structure Params where
  /-- `IO_REGION`: the memory-mapped I/O addresses (20_memory.md rule R64). -/
  ioRegion : List Region
  /-- `MEM_POPULATED`: the addresses backed by storage; an address that is also in `ioRegion` counts as
  I/O (20_memory.md rule R63). -/
  memPopulated : List Region
  /-- `WRAP_POLICY` (20_memory.md rule R62). -/
  wrapPolicy : WrapPolicy
  /-- `UNALIGNED_POLICY` (20_memory.md rule R57). -/
  unalignedPolicy : UnalignedPolicy
  /-- `FETCH_SEES_STORES` (20_memory.md rule R73). -/
  fetchSeesStores : Bool
  deriving DecidableEq, Repr

/-- The `n`-th free byte: what LDRB reads from an I/O address (93_implementation_defined.md U15, "any value").
It has no body, so nothing can be proved of its value.  DESIGN CHOICE of form, log 11; safe. -/
opaque Config.freeByte : Nat → Byte

/-- The `n`-th free halfword: what LDR reads from an I/O address, and what an unaligned LDR loads or an
unaligned STR stores under `UnalignedPolicy.arbitrary`.
It has no body, so nothing can be proved of its value.  DESIGN CHOICE of form, logs 8 and 11. -/
opaque Config.freeHalf : Nat → Word

end Sys2Proof
end

