-- ==== Sys2Proof/Machine/Defaults.lean ====
section
/-! DEFINITION. The setting of the parameters of 00_scope.md rule R7 in the state after reset. -/

namespace Sys2Proof.Machine

/-- The parameters of the machine at reset: the defaults of 92_eei_decisions.md, "Parameters at a glance".
`IO_REGION` is empty and every address is populated (D1, D3, log 10), `WRAP_POLICY` is `strict` (D7, log 7),
`UNALIGNED_POLICY` is `fault` (D4, log 8), and `FETCH_SEES_STORES` is false (D9, log 9).  Statements hold for every
setting. -/
def resetParams : Params where
  ioRegion := []
  memPopulated := [{ base := 0, size := addressSpace }]
  wrapPolicy := .strict
  unalignedPolicy := .fault
  fetchSeesStores := false

end Sys2Proof.Machine
end

