-- ==== Sys2Proof/Machine/State.lean ====
section
/-! DEFINITION. The state of a PAW processor (10_state.md rule R20) as plain data, its reset value, and the
reasons a step can stop. -/

namespace Sys2Proof.Machine

/-- The condition code flags, bits 3 to 0 of the status register (10_state.md rules R31 and R32). -/
structure Flags where
  n : Bool
  z : Bool
  c : Bool
  v : Bool
  deriving DecidableEq, Repr

/-- An output event (address, width, value): a store to memory-mapped I/O (20_memory.md rule R64). -/
inductive OutputEvent where
  /-- STRB: width 1. -/
  | byte (addr : Word) (value : Byte)
  /-- STR: width 2. -/
  | halfword (addr : Word) (value : Word)
  deriving DecidableEq, Repr

/-- The bytes of memory that have a value, as (address, byte) pairs with strictly rising addresses below 2^16
(10_state.md rule R37).  An address that is not listed holds no value: neither `MEM_INIT` nor a store has
given it one (10_state.md rule R40, log 4). -/
abbrev Memory := List Host.Cell

/-- The canonical form of memory: addresses strictly rising and inside the address space.  An unlisted address
has no value, so no entry equals what an unlisted address reads as. -/
abbrev Memory.wf (m : Memory) : Prop :=
  m.Pairwise (fun x y => x.1 < y.1) ∧ ∀ x ∈ m, x.1 < addressSpace

/-- The machine: everything 10_state.md rule R20 gives it, the output events, the parameters of 00_scope.md
rule R7, and the two fields that are this model's or its spec's devices (`stored`, `draws`). -/
structure State where
  /-- R0 to R14 (10_state.md rule R21). -/
  regs : Vector Word 15
  /-- R15, the program counter: between steps, the address of the next instruction (10_state.md rule R26). -/
  pc : Word
  /-- N, Z, C, V (10_state.md rule R31). -/
  flags : Flags
  /-- Status register bits 15:4, which no instruction reads or writes (10_state.md rule R33, log 3). -/
  srUpper : BitVec 12
  /-- Memory (10_state.md rule R37). -/
  mem : Memory
  /-- The halted condition (10_state.md rule R36). -/
  halted : Bool
  /-- The byte addresses STR or STRB has written since reset, strictly rising: what
  `FETCH_SEES_STORES = false` asks for (20_memory.md rule R73, log 25). -/
  stored : List Nat
  /-- The output events, oldest first (20_memory.md rule R64, 43_misc.md rule R161). -/
  outputs : List OutputEvent
  /-- How many free values have been drawn: the model's own field (log 24). -/
  draws : Nat
  /-- The parameters, which no step changes (00_scope.md rule R7, log 6). -/
  params : Params
  deriving DecidableEq, Repr

/-- Why a step stops with a fault: the `ModelFault` reasons of 00_scope.md rule R11 that this model raises.
None is a hardware event: "No exceptions of any kind are detected by a PAW processor" (60_exceptions.md rule
R170). -/
inductive Fault where
  /-- Raised by `step` on a halfword that encodes no instruction (30_encoding.md rule R92, log 13).  Safe. -/
  | undefinedInstruction
  /-- Raised by LDR and STR at an address not divisible by 4 under `UnalignedPolicy.fault` (20_memory.md rule
  R57, log 8).  Safe. -/
  | unalignedHalfword
  /-- Raised by `fetch` at an odd PC (10_state.md rule R29, log 14).  Safe. -/
  | oddPC
  /-- Raised by `fetch` when a byte of the instruction is in `IO_REGION` (20_memory.md rule R65, log 15).
  Safe. -/
  | fetchFromIO
  /-- Raised by `fetch` when STR or STRB has written a byte of the instruction and `FETCH_SEES_STORES` is false
  (20_memory.md rule R73, log 9).  Safe. -/
  | fetchOfModifiedCode
  /-- Raised by `fetch`, LDR and LDRB on a byte that nothing has given a value (10_state.md rule R40, log 4),
  but not by an unaligned LDR under `UnalignedPolicy.arbitrary` (log 29), nor by an LDR whose other byte is in
  `IO_REGION` (log 30).  Safe. -/
  | unwrittenMemory
  /-- Raised by `fetch`, LDR, LDRB, STR and STRB at an address neither populated nor I/O (20_memory.md rule
  R63, log 23).  Safe. -/
  | unpopulatedAddress
  /-- Raised under `WrapPolicy.strict` where a load or store address, pc + 2 or a taken branch target falls
  outside 0 .. 0xFFFF (20_memory.md rule R62, log 7).  Safe. -/
  | addressWrap
  deriving DecidableEq, Repr

/-- Why a step is refused: only an instruction that has no meaning in `exec` yet.  Every instruction of this
model has one. -/
inductive Refusal where
  /-- Raised by an arm of `exec` that gives no meaning; no arm does.  Safe. -/
  | notModelled (mnemonic : String)
  deriving DecidableEq, Repr

/-- The machine right after reset (10_state.md rule R39, 70_reset_and_hazards.md rules R190 and R191): PC 0, not
halted, no output events, nothing stored.  The spec gives R0 to R14, the flags and status bits 15:4 no value:
DESIGN CHOICE 0, unsafe (logs 1, 2 and 3).  Memory lists nothing: what is loaded before reset is not the
machine's (log 4). -/
def State.reset : State where
  regs := Vector.replicate 15 0x0000#16
  pc := 0x0000#16
  flags := { n := false, z := false, c := false, v := false }
  srUpper := 0#12
  mem := []
  halted := false
  stored := []
  outputs := []
  draws := 0
  params := resetParams

end Sys2Proof.Machine
end

