-- ==== Sys2Proof/Machine/Ops.lean ====
section
/-! DEFINITION. The named operations over registers, memory, memory-mapped I/O and the program counter.  PAW has
no exception entry and no return from one (60_exceptions.md rules R170, R174 and R175), so none stands here. -/

namespace Sys2Proof.Machine

/-- What executing an instruction answers. -/
abbrev Result := Host.Outcome State Fault Refusal

/-! ### Field updates -/

/-- Replace R0 to R14. -/
def State.withRegs (s : State) (r : Vector Word 15) : State := { s with regs := r }
/-- Replace the program counter. -/
def State.withPc (s : State) (a : Word) : State := { s with pc := a }
/-- Replace the four flags. -/
def State.withFlags (s : State) (f : Flags) : State := { s with flags := f }
/-- Replace memory. -/
def State.withMem (s : State) (m : Memory) : State := { s with mem := m }
/-- Replace the stored-to marks. -/
def State.withStored (s : State) (l : List Nat) : State := { s with stored := l }
/-- Replace the output events. -/
def State.withOutputs (s : State) (l : List OutputEvent) : State := { s with outputs := l }
/-- Replace the halted condition. -/
def State.withHalted (s : State) (b : Bool) : State := { s with halted := b }
/-- Replace the draw counter. -/
def State.withDraws (s : State) (n : Nat) : State := { s with draws := n }

/-! ### Registers -/

/-- `x[r]` (00_scope.md rule R11): the content of Rr, or for 15 the address of the instruction being executed
(10_state.md rule R26). -/
def readReg (s : State) (r : Reg) : Word := if h : r.val < 15 then s.regs[r.val] else s.pc

/-- `x[r] <- v` (00_scope.md rule R11): for 15 this is `pc <- v`, a branch (10_state.md rule R27). -/
def writeReg (s : State) (r : Reg) (v : Word) : State :=
  if h : r.val < 15 then s.withRegs (s.regs.set r.val v) else s.withPc v

/-- Content of a low register (10_state.md rule R22). -/
def readLow (s : State) (r : LowReg) : Word := readReg s r.toReg

/-- Write a low register (10_state.md rule R22). -/
def writeLow (s : State) (r : LowReg) (v : Word) : State := writeReg s r.toReg v

/-- The status register as one 16-bit value, laid out as 10_state.md rule R31 prints it: bits 15:4, then N, Z,
C, V in bits 3, 2, 1, 0.  No instruction uses this view (10_state.md rule R33). -/
def State.statusRegister (s : State) : BitVec 16 :=
  s.srUpper ++ BitVec.ofBool s.flags.n ++ BitVec.ofBool s.flags.z ++ BitVec.ofBool s.flags.c
    ++ BitVec.ofBool s.flags.v

/-! ### The program counter -/

/-- The implicit `pc <- (pc + 2) mod 2^16` that ends an instruction which writes no PC (10_state.md rule R28);
under `strict` a sum outside 0 .. 0xFFFF faults (20_memory.md rule R62). -/
def advance (s : State) : Result :=
  if s.params.wrapPolicy = .strict ∧ addressSpace ≤ s.pc.toNat + 2 then .fault .addressWrap
  else .next (s.withPc (s.pc + 2#16))

/-- End of an instruction whose destination is register `d`: a written PC stands, "this value
overrides/overwrites the PC+2 value" (10_state.md rule R27); otherwise `advance`. -/
def retire (d : Reg) (s : State) : Result := if d = Reg.pc then .next s else advance s

/-- A taken branch by a signed offset: `pc <- (pc + off) mod 2^16` (42_branch.md rule R150); under `strict` an
unreduced target outside 0 .. 0xFFFF faults (20_memory.md rule R62). -/
def branchBy (s : State) (off : Word) : Result :=
  let target : Int := s.pc.toNat + off.toInt
  if s.params.wrapPolicy = .strict ∧ (target < 0 ∨ (addressSpace : Int) ≤ target) then .fault .addressWrap
  else .next (s.withPc (s.pc + off))

/-- HALT's own effect: enter the halted condition, leave the PC (10_state.md rule R36). -/
def halt (s : State) : Result := .next (s.withHalted true)

/-! ### Memory as a list of cells -/

/-- The byte at an address, if something has given it a value (10_state.md rule R40). -/
def memRead : Memory → Nat → Option Byte
  | [], _ => none
  | x :: m, a => if x.1 = a then some x.2 else memRead m a

/-- Give an address a byte, keeping the canonical form. -/
def memWrite : Memory → Nat → Byte → Memory
  | [], a, b => [(a, b)]
  | x :: m, a, b =>
    if a < x.1 then (a, b) :: x :: m
    else if a = x.1 then (a, b) :: m
    else x :: memWrite m a b

/-- Add an address to a strictly rising list of addresses. -/
def addAddress : List Nat → Nat → List Nat
  | [], a => [a]
  | x :: l, a => if a < x then a :: x :: l else if a = x then x :: l else x :: addAddress l a

/-! ### The address map -/

/-- Whether a region holds an address. -/
def Region.holds (r : Region) (a : Word) : Bool := decide (r.base ≤ a.toNat) && decide (a.toNat < r.base + r.size)

/-- Whether an address is in `IO_REGION` (20_memory.md rule R64). -/
def isIO (s : State) (a : Word) : Bool := s.params.ioRegion.any (fun r => Region.holds r a)

/-- Whether an address is in `MEM_POPULATED` (20_memory.md rule R63). -/
def isPopulated (s : State) (a : Word) : Bool := s.params.memPopulated.any (fun r => Region.holds r a)

/-- Whether an access to one byte reaches something: storage or a device (20_memory.md rule R63). -/
def byteExists (s : State) (a : Word) : Bool := isIO s a || isPopulated s a

/-- The address of the second byte of a halfword, `(a + 1) mod 2^16` (20_memory.md rule R52). -/
def nextByte (a : Word) : Word := a + 1#16

/-- Whether a halfword access counts as an I/O access: either byte is in `IO_REGION` (20_memory.md rule R64), whatever
the other byte is, an unpopulated one (DESIGN CHOICE, log 28) and one that holds no value (DESIGN CHOICE, log 30)
included. -/
def isIOHalf (s : State) (a : Word) : Bool := isIO s a || isIO s (nextByte a)

/-- Whether a halfword access reaches something: it is an I/O access, or both bytes are populated (20_memory.md
rules R63 and R64).  Where one byte is in `IO_REGION` and the other is neither populated nor I/O, R63 (a fault) and
R64 (an I/O access) meet: the model completes the access as I/O, DESIGN CHOICE, log 28. -/
def halfExists (s : State) (a : Word) : Bool := isIOHalf s a || (isPopulated s a && isPopulated s (nextByte a))

/-! ### Loads -/

/-- `MemRead(a, 1)` (20_memory.md rules R52, R61 and R63).  From an I/O address: a fresh free value (log 11). -/
def loadByte (s : State) (a : Word) : Except Fault (Byte × State) :=
  if isIO s a then .ok (Config.freeByte s.draws, s.withDraws (s.draws + 1))
  else if isPopulated s a then
    match memRead s.mem a.toNat with
    | some b => .ok (b, s)
    | none => .error .unwrittenMemory
  else .error .unpopulatedAddress

/-- `MemRead(a, 2)`, the byte at the higher address in bits 15:8 (20_memory.md rules R52, R61, R63 and R64).
From an I/O address: a fresh free value (log 11).  Where one byte is in `IO_REGION` and the other is populated and
holds no value, 10_state.md rule R40 (a fault) and rule R64 (an I/O access) meet: the model completes the load as I/O,
DESIGN CHOICE, log 30. -/
def loadHalf (s : State) (a : Word) : Except Fault (Word × State) :=
  if isIOHalf s a then .ok (Config.freeHalf s.draws, s.withDraws (s.draws + 1))
  else if isPopulated s a && isPopulated s (nextByte a) then
    match memRead s.mem a.toNat, memRead s.mem (nextByte a).toNat with
    | some lo, some hi => .ok (hi ++ lo, s)
    | _, _ => .error .unwrittenMemory
  else .error .unpopulatedAddress

/-- `address[1:0] == 0b00` (20_memory.md rule R57). -/
def isWordAligned (a : Word) : Bool := a.extractLsb' 0 2 == 0#2

/-- LDR's access with its alignment rule (20_memory.md rule R57, 41_load_store.md rule R140).  At an unaligned
address: a fault, or under `arbitrary` a fresh free halfword "and nothing else changes" (log 8).
Under `arbitrary` 10_state.md rule R40 (a fault) and rule R140's alternative (a free value) meet where a populated byte
holds no value: the model completes the load with the free value, DESIGN CHOICE, log 29. -/
def loadHalfAligned (s : State) (a : Word) : Except Fault (Word × State) :=
  if isWordAligned a then loadHalf s a
  else match s.params.unalignedPolicy with
    | .fault => .error .unalignedHalfword
    | .arbitrary =>
      if halfExists s a then .ok (Config.freeHalf s.draws, s.withDraws (s.draws + 1))
      else .error .unpopulatedAddress

/-! ### Stores -/

/-- Put one byte into memory and mark it as stored to (20_memory.md rules R53 and R73). -/
def putByte (s : State) (a : Word) (b : Byte) : State :=
  (s.withMem (memWrite s.mem a.toNat b)).withStored (addAddress s.stored a.toNat)

/-- `MemWrite(a, 1, v)` (20_memory.md rules R53 and R63).  To an I/O address: an output event and no memory
change (20_memory.md rule R64, log 12). -/
def storeByte (s : State) (a : Word) (v : Byte) : Except Fault State :=
  if isIO s a then .ok (s.withOutputs (s.outputs ++ [.byte a v]))
  else if isPopulated s a then .ok (putByte s a v)
  else .error .unpopulatedAddress

/-- `MemWrite(a, 2, v)` (20_memory.md rules R53 and R63): bits 15:8 to the byte at the higher address, bits 7:0
to the one at `a`.  To an I/O address: one output event of width 2 and no memory change (20_memory.md rule R64,
log 12). -/
def storeHalf (s : State) (a : Word) (v : Word) : Except Fault State :=
  if isIOHalf s a then .ok (s.withOutputs (s.outputs ++ [.halfword a v]))
  else if isPopulated s a && isPopulated s (nextByte a) then
    .ok (putByte (putByte s (nextByte a) (v.extractLsb' 8 8)) a (v.extractLsb' 0 8))
  else .error .unpopulatedAddress

/-- STR's access with its alignment rule (20_memory.md rule R57, 41_load_store.md rule R142).  At an unaligned
address: a fault, or under `arbitrary` a fresh free halfword is stored, so that both bytes are arbitrary
(log 8). -/
def storeHalfAligned (s : State) (a : Word) (v : Word) : Except Fault State :=
  if isWordAligned a then storeHalf s a v
  else match s.params.unalignedPolicy with
    | .fault => .error .unalignedHalfword
    | .arbitrary => storeHalf (s.withDraws (s.draws + 1)) a (Config.freeHalf s.draws)

/-! ### Instruction fetch -/

/-- Whether STR or STRB has written one of the two bytes of the instruction at `a` since reset (20_memory.md rule
R73). -/
def isModifiedCode (s : State) (a : Word) : Bool :=
  s.stored.contains a.toNat || s.stored.contains (nextByte a).toNat

/-- `Fetch(pc)` (20_memory.md rules R55, R56, R65 and R73), its checks in the order of 60_exceptions.md rule
R173. -/
def fetch (s : State) : Except Fault Word :=
  if s.pc.getLsbD 0 then .error .oddPC
  else if isIOHalf s s.pc then .error .fetchFromIO
  else if isPopulated s s.pc && isPopulated s (nextByte s.pc) then
    match memRead s.mem s.pc.toNat, memRead s.mem (nextByte s.pc).toNat with
    | some lo, some hi =>
      if !s.params.fetchSeesStores && isModifiedCode s s.pc then .error .fetchOfModifiedCode
      else .ok (hi ++ lo)
    | _, _ => .error .unwrittenMemory
  else .error .unpopulatedAddress

/-- Place one halfword at the PC, as a loader does before reset is released (70_reset_and_hazards.md rule R192):
its bytes get their values and are not marked as stored to (log 5). -/
def loadHalfwordAtPc (s : State) (w : Word) : State :=
  let a := s.pc.toNat
  let b := (nextByte s.pc).toNat
  (s.withMem (memWrite (memWrite s.mem b (w.extractLsb' 8 8)) a (w.extractLsb' 0 8))).withStored
    (s.stored.filter (fun x => x != a && x != b))

end Sys2Proof.Machine
end

