-- ==== Sys2Proof/Machine/Flags.lean ====
section
/-! DEFINITION. Every flag computation of the spec: AddFlags, SubFlags, the shift, the N and Z rule, and the
branch conditions. -/

namespace Sys2Proof.Machine

/-- A 16-bit result with its carry and overflow bits. -/
structure Arith where
  r : Word
  c : Bool
  v : Bool
  deriving DecidableEq, Repr

/-- Whether an exact signed result is outside -2^15 .. 2^15 - 1 (00_scope.md rules R12 and R13). -/
def signedOverflow (x : Int) : Bool := decide (x < -32768) || decide (32767 < x)

/-- `AddFlags(a, b)` (00_scope.md rule R12). -/
def addFlags (a b : Word) : Arith where
  r := BitVec.ofNat 16 (a.toNat + b.toNat)
  c := decide (addressSpace ≤ a.toNat + b.toNat)
  v := signedOverflow (a.toInt + b.toInt)

/-- `SubFlags(a, b)` (00_scope.md rule R13): C is 1 when there is no borrow (90_conflicts.md C3). -/
def subFlags (a b : Word) : Arith where
  r := BitVec.ofInt 16 ((a.toNat : Int) - (b.toNat : Int))
  c := decide (b.toNat ≤ a.toNat)
  v := signedOverflow (a.toInt - b.toInt)

/-- `N <- r[15]; Z <- 1 if r == 0 else 0`, C and V unaffected (10_state.md rule R32). -/
def setNZ (s : State) (r : Word) : State :=
  s.withFlags { s.flags with n := r.getLsbD 15, z := decide (r = 0#16) }

/-- All four flags from an addition or subtraction (10_state.md rule R32). -/
def setNZCV (s : State) (x : Arith) : State :=
  s.withFlags { n := x.r.getLsbD 15, z := decide (x.r = 0#16), c := x.c, v := x.v }

/-- Write C alone (ASR, 40_data_processing.md rule R113). -/
def setC (s : State) (c : Bool) : State := s.withFlags { s.flags with c := c }

/-- ASR's result for shift amount `n` (40_data_processing.md rule R113; 90_conflicts.md C1 and C2). -/
def asrResult (a : Word) (n : Nat) : Word :=
  if n = 0 then a
  else if n < 16 then BitVec.ofInt 16 (a.toInt / 2 ^ n)
  else if a.getLsbD 15 then 0xFFFF#16 else 0x0000#16

/-- ASR's C flag for shift amount `n`: unaffected for 0, the last bit shifted out below 16, else the sign
(40_data_processing.md rule R113). -/
def asrCarry (a : Word) (n : Nat) (old : Bool) : Bool :=
  if n = 0 then old
  else if n < 16 then a.getLsbD (n - 1)
  else a.getLsbD 15

/-- `ConditionHolds` (42_branch.md rule R151). -/
def conditionHolds (c : Cond) (f : Flags) : Bool :=
  match c with
  | .eq => f.z
  | .ne => !f.z
  | .cs => f.c
  | .cc => !f.c
  | .mi => f.n
  | .pl => !f.n
  | .vs => f.v
  | .vc => !f.v
  | .hi => f.c && !f.z
  | .ls => !f.c || f.z
  | .ge => f.n == f.v
  | .lt => f.n != f.v
  | .gt => !f.z && f.n == f.v
  | .le => f.z || f.n != f.v

end Sys2Proof.Machine
end

