-- ==== Sys2Proof/Machine/Operands.lean ====
section
/-! DEFINITION. Every operand form of the spec (30_encoding.md rule R89, 41_load_store.md rule R144): immediates,
the effective address, the branch offset, the ASR amount. -/

namespace Sys2Proof.Machine

/-- `zext_16(Immediate8)`: MOV(1) and CMP(1) (30_encoding.md rule R89). -/
def immediate8 (imm : BitVec 8) : Word := imm.setWidth 16

/-- `zext_16(Immediate8) << 2`: ADD(2), 0 to 1020 (30_encoding.md rule R89). -/
def immediate8Scaled (imm : BitVec 8) : Word := immediate8 imm <<< 2

/-- `zext_16(Imm5)`: LDRB and STRB, 0 to 31 (30_encoding.md rule R89). -/
def byteOffset (imm : BitVec 5) : Nat := imm.toNat

/-- `zext_16(Imm5) << 2`: LDR and STR, 0 to 124 (30_encoding.md rule R89). -/
def halfOffset (imm : BitVec 5) : Nat := 4 * imm.toNat

/-- `sext_16(BranchOffset : 0)`: -256 to +254 (30_encoding.md rule R89). -/
def branchOffset (off : BitVec 8) : Word := (off ++ 0#1 : BitVec 9).signExtend 16

/-- The base of ADD(2): `pc AND 0xFFFC` (40_data_processing.md rule R111). -/
def pcBase (s : State) : Word := s.pc &&& 0xFFFC#16

/-- ASR's shift amount, `uint(x[s][7:0])`, 0 to 255 (40_data_processing.md rule R113). -/
def shiftAmount (v : Word) : Nat := (v.extractLsb' 0 8).toNat

/-- The one addressing mode: base register plus unsigned offset, modulo 2^16 (41_load_store.md rule R144); under
`strict` a sum past 0xFFFF faults (20_memory.md rule R62). -/
def effectiveAddress (s : State) (rb : LowReg) (offset : Nat) : Except Fault Word :=
  let sum := (readLow s rb).toNat + offset
  if s.params.wrapPolicy = .strict ∧ addressSpace ≤ sum then .error .addressWrap
  else .ok (BitVec.ofNat 16 sum)

end Sys2Proof.Machine
end

