-- ==== Sys2Proof/Machine/Branch.lean ====
section
/-! DEFINITION. The conditional branches (42_branch.md rules R150 and R151), one meaning for each row of the
opcode table over one shared operation. -/

namespace Sys2Proof.Machine

/-- B with condition `c` (rule R150): taken, `pc <- (pc + sext_16(BranchOffset : 0)) mod 2^16`, the PC on the
right being the address of this B; not taken, `pc <- (pc + 2) mod 2^16`. -/
def branch (c : Cond) (off : BitVec 8) (s : State) : Result :=
  if conditionHolds c s.flags then branchBy s (branchOffset off) else advance s

/-- Beq: "Equal" (rule R151). -/
def execBeq (off : BitVec 8) (s : State) : Result := branch .eq off s

/-- Bne: "Not equal" (rule R151). -/
def execBne (off : BitVec 8) (s : State) : Result := branch .ne off s

/-- Bcs: "Carry set / unsigned higher or same" (rule R151). -/
def execBcs (off : BitVec 8) (s : State) : Result := branch .cs off s

/-- Bcc: "Carry clear / unsigned lower" (rule R151). -/
def execBcc (off : BitVec 8) (s : State) : Result := branch .cc off s

/-- Bmi: "Minus / Negative" (rule R151). -/
def execBmi (off : BitVec 8) (s : State) : Result := branch .mi off s

/-- Bpl: "Plus / Positive or zero" (rule R151). -/
def execBpl (off : BitVec 8) (s : State) : Result := branch .pl off s

/-- Bvs: "Overflow" (rule R151). -/
def execBvs (off : BitVec 8) (s : State) : Result := branch .vs off s

/-- Bvc: "No overflow" (rule R151). -/
def execBvc (off : BitVec 8) (s : State) : Result := branch .vc off s

/-- Bhi: "Unsigned higher" (rule R151). -/
def execBhi (off : BitVec 8) (s : State) : Result := branch .hi off s

/-- Bls: "Unsigned lower or same" (rule R151). -/
def execBls (off : BitVec 8) (s : State) : Result := branch .ls off s

/-- Bge: "Signed >=" (rule R151). -/
def execBge (off : BitVec 8) (s : State) : Result := branch .ge off s

/-- Blt: "Signed <" (rule R151). -/
def execBlt (off : BitVec 8) (s : State) : Result := branch .lt off s

/-- Bgt: "Signed >" (rule R151). -/
def execBgt (off : BitVec 8) (s : State) : Result := branch .gt off s

/-- Ble: "Signed <=" (rule R151). -/
def execBle (off : BitVec 8) (s : State) : Result := branch .le off s

end Sys2Proof.Machine
end

