-- ==== Sys2Proof/Machine/DataProcessing.lean ====
section
/-! DEFINITION. The data-processing instructions (40_data_processing.md).  Sources are read before the destination
is written (rule R127), and flags come from the value computed, for the PC as for every other destination (rule
R126, log 17). -/

namespace Sys2Proof.Machine

/-- `CMP` of two values: flags only, no register (rules R114 to R116). -/
def compare (a b : Word) (s : State) : Result := advance (setNZCV s (subFlags a b))

/-- ADD(1) (rule R110).  With destination 15 this is a branch; a sum written to the PC never faults
(20_memory.md rule R62). -/
def execAdd1 (rd rs : Reg) (s : State) : Result :=
  let x := addFlags (readReg s rd) (readReg s rs)
  retire rd (setNZCV (writeReg s rd x.r) x)

/-- ADD(2) (rule R111). -/
def execAdd2 (rd : LowReg) (imm : BitVec 8) (s : State) : Result :=
  advance (writeLow s rd (pcBase s + immediate8Scaled imm))

/-- AND (rule R112). -/
def execAnd (rd rs : LowReg) (s : State) : Result :=
  let r := readLow s rd &&& readLow s rs
  advance (setNZ (writeLow s rd r) r)

/-- EOR (rule R120). -/
def execEor (rd rs : LowReg) (s : State) : Result :=
  let r := readLow s rd ^^^ readLow s rs
  advance (setNZ (writeLow s rd r) r)

/-- ASR (rule R113).  For amount 0 the register and C keep their values, and N and Z are still written. -/
def execAsr (rd rs : LowReg) (s : State) : Result :=
  let n := shiftAmount (readLow s rs)
  let a := readLow s rd
  let r := asrResult a n
  advance (setNZ (setC (writeLow s rd r) (asrCarry a n s.flags.c)) r)

/-- TST (rule R125). -/
def execTst (rd rs : LowReg) (s : State) : Result := advance (setNZ s (readLow s rd &&& readLow s rs))

/-- NEG (rule R124): 0 - Rs, flags of that subtraction. -/
def execNeg (rd rs : LowReg) (s : State) : Result :=
  let x := subFlags 0x0000#16 (readLow s rs)
  advance (setNZCV (writeLow s rd x.r) x)

/-- CMP(1) (rule R114). -/
def execCmp1 (rd : LowReg) (imm : BitVec 8) (s : State) : Result := compare (readLow s rd) (immediate8 imm) s

/-- CMP(2) (rule R115). -/
def execCmp2 (rd rs : LowReg) (s : State) : Result := compare (readLow s rd) (readLow s rs) s

/-- CMP(3), the encodings with H1 = 1 (rule R116); register 15 reads as the address of this instruction. -/
def execCmp3H1 (rd rs : Reg) (s : State) : Result := compare (readReg s rd) (readReg s rs) s

/-- CMP(3), the encodings with H1 = 0 and H2 = 1 (rule R116). -/
def execCmp3H2 (rd rs : Reg) (s : State) : Result := compare (readReg s rd) (readReg s rs) s

/-- MOV(1) (rule R122): N is always 0, since bit 15 of the value is. -/
def execMov1 (rd : LowReg) (imm : BitVec 8) (s : State) : Result :=
  advance (setNZ (writeLow s rd (immediate8 imm)) (immediate8 imm))

/-- MOV(2) (rule R123).  With destination 15 this is a branch. -/
def execMov2 (rd rs : Reg) (s : State) : Result :=
  let r := readReg s rs
  retire rd (setNZ (writeReg s rd r) r)

end Sys2Proof.Machine
end

