-- ==== Sys2Proof/Machine/LoadStore.lean ====
section
/-! DEFINITION. The load and store instructions (41_load_store.md).  Flags are not affected, the base register is
not modified (rule R144), and the address comes from the registers before any write (40_data_processing.md rule
R127). -/

namespace Sys2Proof.Machine

/-- End of a load: the value into the destination, or the access's fault. -/
def finishLoad (rd : LowReg) : Except Fault (Word × State) → Result
  | .error f => .fault f
  | .ok (v, s) => advance (writeLow s rd v)

/-- End of a store: the state the access leaves, or its fault. -/
def finishStore : Except Fault State → Result
  | .error f => .fault f
  | .ok s => advance s

/-- A byte read, zero-extended: "The byte is not sign-extended" (rule R145). -/
def loadByteZeroExtended (s : State) (a : Word) : Except Fault (Word × State) :=
  match loadByte s a with
  | .error f => .error f
  | .ok (b, t) => .ok (b.setWidth 16, t)

/-- LDR (rule R140; its Operation block is rebuilt by the spec, log 22). -/
def execLdr (rd rb : LowReg) (imm : BitVec 5) (s : State) : Result :=
  match effectiveAddress s rb (halfOffset imm) with
  | .error f => .fault f
  | .ok a => finishLoad rd (loadHalfAligned s a)

/-- LDRB (rule R141). -/
def execLdrb (rd rb : LowReg) (imm : BitVec 5) (s : State) : Result :=
  match effectiveAddress s rb (byteOffset imm) with
  | .error f => .fault f
  | .ok a => finishLoad rd (loadByteZeroExtended s a)

/-- STR (rule R142). -/
def execStr (rd rb : LowReg) (imm : BitVec 5) (s : State) : Result :=
  match effectiveAddress s rb (halfOffset imm) with
  | .error f => .fault f
  | .ok a => finishStore (storeHalfAligned s a (readLow s rd))

/-- STRB (rule R143): bits 7:0 of the register, bits 15:8 ignored. -/
def execStrb (rd rb : LowReg) (imm : BitVec 5) (s : State) : Result :=
  match effectiveAddress s rb (byteOffset imm) with
  | .error f => .fault f
  | .ok a => finishStore (storeByte s a ((readLow s rd).extractLsb' 0 8))

end Sys2Proof.Machine
end

