-- ==== Sys2Proof/Machine/Misc.lean ====
section
/-! DEFINITION. The miscellaneous instructions (43_misc.md): HALT. -/

namespace Sys2Proof.Machine

/-- HALT (rule R160): the halted condition is entered, the PC stays at this instruction's address and nothing
else changes (log 16). -/
def execHalt (s : State) : Result := halt s

end Sys2Proof.Machine
end

