-- ==== Sys2Proof/Machine/Dispatch.lean ====
section
/-! DEFINITION. The dispatch of one instruction to its meaning: one arm per constructor of Instr. -/

namespace Sys2Proof.Machine

-- One arm for each row of spec/opcode_table.json, in the table's order (30_encoding.md rule R91).
def exec (i : Instr) (s : State) : Host.Outcome State Fault Refusal :=
  match i with
  | .halt => Sys2Proof.Machine.execHalt s
  | .mov1 rd imm => Sys2Proof.Machine.execMov1 rd imm s
  | .cmp1 rd imm => Sys2Proof.Machine.execCmp1 rd imm s
  | .and rd rs => Sys2Proof.Machine.execAnd rd rs s
  | .eor rd rs => Sys2Proof.Machine.execEor rd rs s
  | .asr rd rs => Sys2Proof.Machine.execAsr rd rs s
  | .tst rd rs => Sys2Proof.Machine.execTst rd rs s
  | .neg rd rs => Sys2Proof.Machine.execNeg rd rs s
  | .cmp2 rd rs => Sys2Proof.Machine.execCmp2 rd rs s
  | .add1 rd rs => Sys2Proof.Machine.execAdd1 rd rs s
  | .cmp3H1 rd rs => Sys2Proof.Machine.execCmp3H1 rd rs s
  | .cmp3H2 rd rs => Sys2Proof.Machine.execCmp3H2 rd rs s
  | .mov2 rd rs => Sys2Proof.Machine.execMov2 rd rs s
  | .str rd rb imm => Sys2Proof.Machine.execStr rd rb imm s
  | .ldr rd rb imm => Sys2Proof.Machine.execLdr rd rb imm s
  | .strb rd rb imm => Sys2Proof.Machine.execStrb rd rb imm s
  | .ldrb rd rb imm => Sys2Proof.Machine.execLdrb rd rb imm s
  | .add2 rd imm => Sys2Proof.Machine.execAdd2 rd imm s
  | .beq off => Sys2Proof.Machine.execBeq off s
  | .bne off => Sys2Proof.Machine.execBne off s
  | .bcs off => Sys2Proof.Machine.execBcs off s
  | .bcc off => Sys2Proof.Machine.execBcc off s
  | .bmi off => Sys2Proof.Machine.execBmi off s
  | .bpl off => Sys2Proof.Machine.execBpl off s
  | .bvs off => Sys2Proof.Machine.execBvs off s
  | .bvc off => Sys2Proof.Machine.execBvc off s
  | .bhi off => Sys2Proof.Machine.execBhi off s
  | .bls off => Sys2Proof.Machine.execBls off s
  | .bge off => Sys2Proof.Machine.execBge off s
  | .blt off => Sys2Proof.Machine.execBlt off s
  | .bgt off => Sys2Proof.Machine.execBgt off s
  | .ble off => Sys2Proof.Machine.execBle off s

end Sys2Proof.Machine
end

