-- ==== Sys2Proof/Machine/Step.lean ====
section
/-! DEFINITION. One step of the processor (70_reset_and_hazards.md rule R198), and the placing of one instruction
where the next step fetches. -/

namespace Sys2Proof.Machine

/-- One step (70_reset_and_hazards.md rule R198).  A halted processor has no step of its own: nothing is fetched
and nothing changes, so its step answers the same state (10_state.md rule R36, DESIGN CHOICE, log 16). -/
def step (s : State) : Host.Outcome State Fault Refusal :=
  if s.halted then .next s
  else match fetch s with
    | .error f => .fault f
    | .ok w =>
      match decodeHalfword w with
      | .error _ => .fault .undefinedInstruction
      | .ok i => exec i s

/-- `s` with the instruction of bits `w` (bit 0 the least significant bit of its only halfword; bits from `nbits`
up are 0) placed at the PC, as a loader places a program (log 5). -/
def State.withFetchWord (s : State) (nbits w : Nat) : State :=
  loadHalfwordAtPc s (BitVec.ofNat 16 (w % 2 ^ nbits))

end Sys2Proof.Machine
end

