-- ==== Sys2Proof/Machine/Assembly.lean ====
section
/-! DEFINITION. The Syntax lines of the instruction descriptions as an abstract syntax, and the encoding an assembler
must choose for each (30_encoding.md rules R99 to R102).  The manual gives no text syntax beyond these lines, so
there is no parser. -/

namespace Sys2Proof

/-- How an operand names a register: R0 to R15, or SP, LP and PC for R13, R14 and R15 (30_encoding.md rule R99). -/
inductive RegName where
  | r (n : Reg)
  | sp
  | lp
  | pc
  deriving DecidableEq, Repr

/-- One line of 30_encoding.md rule R100's table.  Offsets of memory operands and of ADD(2) are byte offsets
(DESIGN CHOICE, log 27), immediates are numbers, and a branch names its target address. -/
inductive AsmLine where
  /-- `ADD <Rd>, <Rs>` -/
  | addReg (rd rs : RegName)
  /-- `ADD <Rd>, PC, #<Immediate8><<2` -/
  | addPc (rd : RegName) (offset : Nat)
  /-- `AND <Rd>, <Rs>` -/
  | and (rd rs : RegName)
  /-- `ASR <Rd>, <Rs>` -/
  | asr (rd rs : RegName)
  /-- `B<cond> <target address>` -/
  | b (c : Cond) (target : Word)
  /-- `CMP <Rd>, #<Immediate8>` -/
  | cmpImm (rd : RegName) (imm : Nat)
  /-- `CMP <Rd>, <Rs>` -/
  | cmpReg (rd rs : RegName)
  /-- `EOR <Rd>, <Rs>` -/
  | eor (rd rs : RegName)
  /-- `HALT` -/
  | halt
  /-- `LDR <Rd>, [<Rb>, #<Imm5><<2]` -/
  | ldr (rd rb : RegName) (offset : Nat)
  /-- `LDRB <Rd>, [<Rb>, #<Imm5>]` -/
  | ldrb (rd rb : RegName) (offset : Nat)
  /-- `MOV <Rd>, #<Immediate8>` -/
  | movImm (rd : RegName) (imm : Nat)
  /-- `MOV <Rd>, <Rs>` -/
  | movReg (rd rs : RegName)
  /-- `NEG <Rd>, <Rs>` -/
  | neg (rd rs : RegName)
  /-- `STR <Rd>, [<Rb>, #<Imm5><<2]` -/
  | str (rd rb : RegName) (offset : Nat)
  /-- `STRB <Rd>, [<Rb>, #<Imm5>]` -/
  | strb (rd rb : RegName) (offset : Nat)
  /-- `TST <Rd>, <Rs>` -/
  | tst (rd rs : RegName)
  deriving DecidableEq, Repr

namespace Machine

/-- The register a name stands for (10_state.md rule R24, 30_encoding.md rule R99). -/
def regNumber : RegName → Reg
  | .r n => n
  | .sp => Reg.sp
  | .lp => Reg.lp
  | .pc => Reg.pc

/-- A register that must be one of R0 to R7. -/
def lowOperand (x : RegName) : Option LowReg :=
  if h : (regNumber x).val < 8 then some ⟨(regNumber x).val, h⟩ else none

/-- Two registers that must be among R0 to R7. -/
def lowPair (f : LowReg → LowReg → Instr) (x y : RegName) : Option Instr :=
  match lowOperand x, lowOperand y with
  | some a, some b => some (f a b)
  | _, _ => none

/-- A low register and an 8-bit field, which holds `n` when it fits. -/
def lowWithByte (f : LowReg → BitVec 8 → Instr) (x : RegName) (n : Nat) : Option Instr :=
  match lowOperand x with
  | some a => if n < 256 then some (f a (BitVec.ofNat 8 n)) else none
  | none => none

/-- A memory operand: the offset must be a multiple of `scale`, 0 to 31 of them (30_encoding.md rule R100). -/
def memoryOperand (f : LowReg → LowReg → BitVec 5 → Instr) (scale : Nat) (x y : RegName) (offset : Nat) :
    Option Instr :=
  match lowOperand x, lowOperand y with
  | some a, some b =>
    if offset % scale = 0 ∧ offset / scale < 32 then some (f a b (BitVec.ofNat 5 (offset / scale))) else none
  | _, _ => none

/-- The instruction a condition mnemonic names (30_encoding.md rule R102). -/
def branchInstr (c : Cond) (off : BitVec 8) : Instr :=
  match c with
  | .eq => .beq off
  | .ne => .bne off
  | .cs => .bcs off
  | .cc => .bcc off
  | .mi => .bmi off
  | .pl => .bpl off
  | .vs => .bvs off
  | .vc => .bvc off
  | .hi => .bhi off
  | .ls => .bls off
  | .ge => .bge off
  | .lt => .blt off
  | .gt => .bgt off
  | .le => .ble off

/-- `B<cond> <target address>` at `address`: the target must lie within -256 .. +254 bytes and at an even distance;
the field is half the distance (30_encoding.md rule R100). -/
def assembleBranch (c : Cond) (address target : Word) : Option Instr :=
  let distance : Int := (target.toNat : Int) - (address.toNat : Int)
  if distance % 2 = 0 ∧ -256 ≤ distance ∧ distance ≤ 254 then some (branchInstr c (BitVec.ofInt 8 (distance / 2)))
  else none

/-- `CMP <Rd>, <Rs>`: CMP(2) for two low registers, CMP(3) for one or both high (30_encoding.md rule R100). -/
def assembleCmp (rd rs : Reg) : Instr :=
  if h : rd.val < 8 then
    if k : rs.val < 8 then .cmp2 ⟨rd.val, h⟩ ⟨rs.val, k⟩ else .cmp3H2 rd rs
  else .cmp3H1 rd rs

/-- The instruction that a line placed at `address` stands for, `none` where an operand is outside the line's limits
(30_encoding.md rule R100). -/
def assemble (address : Word) : AsmLine → Option Instr
  | .addReg rd rs => some (.add1 (regNumber rd) (regNumber rs))
  | .addPc rd offset => if offset % 4 = 0 then lowWithByte .add2 rd (offset / 4) else none
  | .and rd rs => lowPair .and rd rs
  | .asr rd rs => lowPair .asr rd rs
  | .b c target => assembleBranch c address target
  | .cmpImm rd imm => lowWithByte .cmp1 rd imm
  | .cmpReg rd rs => some (assembleCmp (regNumber rd) (regNumber rs))
  | .eor rd rs => lowPair .eor rd rs
  | .halt => some .halt
  | .ldr rd rb offset => memoryOperand .ldr 4 rd rb offset
  | .ldrb rd rb offset => memoryOperand .ldrb 1 rd rb offset
  | .movImm rd imm => lowWithByte .mov1 rd imm
  | .movReg rd rs => some (.mov2 (regNumber rd) (regNumber rs))
  | .neg rd rs => lowPair .neg rd rs
  | .str rd rb offset => memoryOperand .str 4 rd rb offset
  | .strb rd rb offset => memoryOperand .strb 1 rd rb offset
  | .tst rd rs => lowPair .tst rd rs

end Machine

end Sys2Proof
end

