-- ==== Sys2Proof/Safety.lean ====
section
/-! DEFINITION. The terms in which claims speak of a run: the invariant of the state, when an access or an
address calculation stays inside what the spec defines, and what an instruction keeps. -/

namespace Sys2Proof.Machine

/-! ### The invariant -/

/-- Strictly rising addresses inside the address space: the form of the stored-to marks. -/
abbrev addressesRising (l : List Nat) : Prop := l.Pairwise (· < ·) ∧ ∀ a ∈ l, a < addressSpace

/-- The invariant of a state: memory and the stored-to marks have their canonical form, and every address marked
as stored to holds a value (20_memory.md rules R61 and R73). -/
abbrev State.Inv (s : State) : Prop :=
  Memory.wf s.mem ∧ addressesRising s.stored ∧ ∀ a ∈ s.stored, (memRead s.mem a).isSome

/-! ### Where the spec lets an access or a calculation go on -/

/-- The implicit `pc + 2` raises no `addressWrap`: `wrap`, or the sum stays inside 0 .. 0xFFFF (20_memory.md rule
R62). -/
abbrev nextInRange (s : State) : Prop := s.params.wrapPolicy = .wrap ∨ s.pc.toNat + 2 < 65536

/-- The effective address `x[rb] + offset` raises no `addressWrap` (20_memory.md rule R62). -/
abbrev addressInRange (s : State) (rb : LowReg) (offset : Nat) : Prop :=
  s.params.wrapPolicy = .wrap ∨ (readReg s rb.toReg).toNat + offset < 65536

/-- The target of a taken branch raises no `addressWrap` (20_memory.md rule R62): the unreduced target is the PC
plus twice the signed 8-bit offset (42_branch.md rule R150). -/
abbrev targetInRange (s : State) (off : BitVec 8) : Prop :=
  s.params.wrapPolicy = .wrap ∨
    (0 ≤ (s.pc.toNat : Int) + 2 * off.toInt ∧ (s.pc.toNat : Int) + 2 * off.toInt < 65536)

/-- Both bytes of the halfword at `a` are storage: populated and not I/O (20_memory.md rules R63 and R64). -/
abbrev isStorageHalf (s : State) (a : Word) : Prop :=
  isIO s a = false ∧ isIO s (a + 1#16) = false ∧ isPopulated s a = true ∧ isPopulated s (a + 1#16) = true

/-- The byte at `a` is storage: populated and not I/O (20_memory.md rules R63 and R64). -/
abbrev isStorageByte (s : State) (a : Word) : Prop := isIO s a = false ∧ isPopulated s a = true

/-! ### What an instruction keeps -/

/-- Every register among R0 to R14 but those in `ds` has the same content; R15 is the program counter and is
spoken of apart. -/
abbrev keepsRegsExcept (ds : List Reg) (s t : State) : Prop :=
  ∀ r : Reg, r ∉ ds → r ≠ Reg.pc → readReg t r = readReg s r

/-- Every byte of memory reads as before, and no store has been marked or sent to a device. -/
abbrev keepsMemory (s t : State) : Prop :=
  (∀ a : Nat, memRead t.mem a = memRead s.mem a) ∧ t.mem = s.mem ∧ t.stored = s.stored ∧ t.outputs = s.outputs

/-- Status register bits 15:4 and the parameters are the same. -/
abbrev keepsFixed (s t : State) : Prop := t.srUpper = s.srUpper ∧ t.params = s.params

/-- The frame of an instruction that touches neither memory nor a device and draws no free value: of the state
only the registers in `ds`, the flags and the PC may differ. -/
abbrev keepsAllBut (ds : List Reg) (s t : State) : Prop :=
  keepsRegsExcept ds s t ∧ keepsMemory s t ∧ keepsFixed s t ∧ t.halted = s.halted ∧ t.draws = s.draws

/-- N is bit 15 of `r` and Z says whether `r` is zero (10_state.md rule R32). -/
abbrev flagsShowNZ (t : State) (r : Word) : Prop :=
  t.flags.n = r.getLsbD 15 ∧ (t.flags.z = true ↔ r = 0#16)

/-- All four flags show the sum of `a` and `b`: the carry is an unsigned overflow, V a signed one (00_scope.md rule
R12). -/
abbrev flagsShowAdd (t : State) (a b : Word) : Prop :=
  flagsShowNZ t (a + b) ∧ (t.flags.c = true ↔ 65536 ≤ a.toNat + b.toNat) ∧
    (t.flags.v = true ↔ a.toInt + b.toInt < -32768 ∨ 32767 < a.toInt + b.toInt)

/-- All four flags show the difference of `a` and `b`: C says there was no borrow (00_scope.md rule R13). -/
abbrev flagsShowSub (t : State) (a b : Word) : Prop :=
  flagsShowNZ t (a - b) ∧ (t.flags.c = true ↔ b.toNat ≤ a.toNat) ∧
    (t.flags.v = true ↔ a.toInt - b.toInt < -32768 ∨ 32767 < a.toInt - b.toInt)

/-- C and V are unaffected. -/
abbrev keepsCV (s t : State) : Prop := t.flags.c = s.flags.c ∧ t.flags.v = s.flags.v

/-! ### The operand tables of the spec -/

/-- The register an instruction writes (10_state.md rule R25's last column; B's implicit write of the PC apart). -/
def destination : Instr → Option Reg
  | .halt => none
  | .mov1 rd _ => some rd.toReg
  | .cmp1 _ _ => none
  | .and rd _ => some rd.toReg
  | .eor rd _ => some rd.toReg
  | .asr rd _ => some rd.toReg
  | .tst _ _ => none
  | .neg rd _ => some rd.toReg
  | .cmp2 _ _ => none
  | .add1 rd _ => some rd
  | .cmp3H1 _ _ => none
  | .cmp3H2 _ _ => none
  | .mov2 rd _ => some rd
  | .str _ _ _ => none
  | .ldr rd _ _ => some rd.toReg
  | .strb _ _ _ => none
  | .ldrb rd _ _ => some rd.toReg
  | .add2 rd _ => some rd.toReg
  | .beq _ => none
  | .bne _ => none
  | .bcs _ => none
  | .bcc _ => none
  | .bmi _ => none
  | .bpl _ => none
  | .bvs _ => none
  | .bvc _ => none
  | .bhi _ => none
  | .bls _ => none
  | .bge _ => none
  | .blt _ => none
  | .bgt _ => none
  | .ble _ => none

/-- The condition of a conditional branch, and its offset (42_branch.md rules R150 and R151). -/
def branchOf : Instr → Option (Cond × BitVec 8)
  | .halt => none
  | .mov1 _ _ => none
  | .cmp1 _ _ => none
  | .and _ _ => none
  | .eor _ _ => none
  | .asr _ _ => none
  | .tst _ _ => none
  | .neg _ _ => none
  | .cmp2 _ _ => none
  | .add1 _ _ => none
  | .cmp3H1 _ _ => none
  | .cmp3H2 _ _ => none
  | .mov2 _ _ => none
  | .str _ _ _ => none
  | .ldr _ _ _ => none
  | .strb _ _ _ => none
  | .ldrb _ _ _ => none
  | .add2 _ _ => none
  | .beq off => some (.eq, off)
  | .bne off => some (.ne, off)
  | .bcs off => some (.cs, off)
  | .bcc off => some (.cc, off)
  | .bmi off => some (.mi, off)
  | .bpl off => some (.pl, off)
  | .bvs off => some (.vs, off)
  | .bvc off => some (.vc, off)
  | .bhi off => some (.hi, off)
  | .bls off => some (.ls, off)
  | .bge off => some (.ge, off)
  | .blt off => some (.lt, off)
  | .bgt off => some (.gt, off)
  | .ble off => some (.le, off)

/-- What a condition says of the flags: the table of 42_branch.md rule R151. -/
abbrev conditionTable (c : Cond) (f : Flags) : Prop :=
  match c with
  | .eq => f.z = true
  | .ne => f.z = false
  | .cs => f.c = true
  | .cc => f.c = false
  | .mi => f.n = true
  | .pl => f.n = false
  | .vs => f.v = true
  | .vc => f.v = false
  | .hi => f.c = true ∧ f.z = false
  | .ls => f.c = false ∨ f.z = true
  | .ge => f.n = f.v
  | .lt => f.n ≠ f.v
  | .gt => f.z = false ∧ f.n = f.v
  | .le => f.z = true ∨ f.n ≠ f.v

/-- The number of a condition in bits 11:8 of B (42_branch.md rule R151). -/
def conditionNumber : Cond → Nat
  | .eq => 0
  | .ne => 1
  | .cs => 2
  | .cc => 3
  | .mi => 4
  | .pl => 5
  | .vs => 6
  | .vc => 7
  | .hi => 8
  | .ls => 9
  | .ge => 10
  | .lt => 11
  | .gt => 12
  | .le => 13

/-- The two values a comparison compares (40_data_processing.md rules R114 to R116). -/
def comparands (s : State) : Instr → Option (Word × Word)
  | .cmp1 rd imm => some (readReg s rd.toReg, imm.setWidth 16)
  | .cmp2 rd rs => some (readReg s rd.toReg, readReg s rs.toReg)
  | .cmp3H1 rd rs => some (readReg s rd, readReg s rs)
  | .cmp3H2 rd rs => some (readReg s rd, readReg s rs)
  | _ => none

/-- The halfwords that encode no instruction, by value range (30_encoding.md rule R92). -/
abbrev isUndefinedEncoding (w : Word) : Prop :=
  (0x0001 ≤ w.toNat ∧ w.toNat ≤ 0x00FF) ∨ (0x0100 ≤ w.toNat ∧ w.toNat ≤ 0x1FFF) ∨
  (0x3000 ≤ w.toNat ∧ w.toNat ≤ 0x3FFF) ∨ (0x4180 ≤ w.toNat ∧ w.toNat ≤ 0x43FF) ∨
  (0x4500 ≤ w.toNat ∧ w.toNat ≤ 0x453F) ∨ (0x4700 ≤ w.toNat ∧ w.toNat ≤ 0x47FF) ∨
  (0x4800 ≤ w.toNat ∧ w.toNat ≤ 0x5FFF) ∨ (0x8000 ≤ w.toNat ∧ w.toNat ≤ 0x9FFF) ∨
  (0xA800 ≤ w.toNat ∧ w.toNat ≤ 0xAFFF) ∨ (0xB000 ≤ w.toNat ∧ w.toNat ≤ 0xBFFF) ∨
  (0xC000 ≤ w.toNat ∧ w.toNat ≤ 0xCFFF) ∨ (0xDE00 ≤ w.toNat ∧ w.toNat ≤ 0xDFFF) ∨
  (0xE000 ≤ w.toNat ∧ w.toNat ≤ 0xFFFF)

/-- The table of 30_encoding.md rule R100, row by row: the instruction that a line placed at `a` stands for, with the
limits of its operands.  An offset written in bytes is four times the field of LDR, STR and ADD(2), and the field
itself for LDRB and STRB (log 27). -/
def lineStandsFor (a : Word) : AsmLine → Instr → Prop
  | .addReg x y, i => i = .add1 (regNumber x) (regNumber y)
  | .addPc x n, i => ∃ (d : LowReg) (f : BitVec 8), regNumber x = d.toReg ∧ n = 4 * f.toNat ∧ i = .add2 d f
  | .and x y, i => ∃ d s : LowReg, regNumber x = d.toReg ∧ regNumber y = s.toReg ∧ i = .and d s
  | .asr x y, i => ∃ d s : LowReg, regNumber x = d.toReg ∧ regNumber y = s.toReg ∧ i = .asr d s
  | .b c target, i =>
    ∃ off : BitVec 8, branchOf i = some (c, off) ∧ (target.toNat : Int) = (a.toNat : Int) + 2 * off.toInt
  | .cmpImm x n, i => ∃ (d : LowReg) (f : BitVec 8), regNumber x = d.toReg ∧ n = f.toNat ∧ i = .cmp1 d f
  | .cmpReg x y, i =>
    (∃ d s : LowReg, regNumber x = d.toReg ∧ regNumber y = s.toReg ∧ i = .cmp2 d s) ∨
    (8 ≤ (regNumber x).val ∧ i = .cmp3H1 (regNumber x) (regNumber y)) ∨
    ((regNumber x).val < 8 ∧ 8 ≤ (regNumber y).val ∧ i = .cmp3H2 (regNumber x) (regNumber y))
  | .eor x y, i => ∃ d s : LowReg, regNumber x = d.toReg ∧ regNumber y = s.toReg ∧ i = .eor d s
  | .halt, i => i = .halt
  | .ldr x y n, i => ∃ (d b : LowReg) (f : BitVec 5),
    regNumber x = d.toReg ∧ regNumber y = b.toReg ∧ n = 4 * f.toNat ∧ i = .ldr d b f
  | .ldrb x y n, i => ∃ (d b : LowReg) (f : BitVec 5),
    regNumber x = d.toReg ∧ regNumber y = b.toReg ∧ n = f.toNat ∧ i = .ldrb d b f
  | .movImm x n, i => ∃ (d : LowReg) (f : BitVec 8), regNumber x = d.toReg ∧ n = f.toNat ∧ i = .mov1 d f
  | .movReg x y, i => i = .mov2 (regNumber x) (regNumber y)
  | .neg x y, i => ∃ d s : LowReg, regNumber x = d.toReg ∧ regNumber y = s.toReg ∧ i = .neg d s
  | .str x y n, i => ∃ (d b : LowReg) (f : BitVec 5),
    regNumber x = d.toReg ∧ regNumber y = b.toReg ∧ n = 4 * f.toNat ∧ i = .str d b f
  | .strb x y n, i => ∃ (d b : LowReg) (f : BitVec 5),
    regNumber x = d.toReg ∧ regNumber y = b.toReg ∧ n = f.toNat ∧ i = .strb d b f
  | .tst x y, i => ∃ d s : LowReg, regNumber x = d.toReg ∧ regNumber y = s.toReg ∧ i = .tst d s

/-- Whether an instruction is a store: the only ones that change memory or send to a device. -/
def isStore : Instr → Bool
  | .str _ _ _ => true
  | .strb _ _ _ => true
  | _ => false

/-- Whether an instruction is one of the three Format 5 instructions, the only ones that may name a high
register (10_state.md rule R23). -/
def isHiOperation : Instr → Bool
  | .add1 _ _ => true
  | .cmp3H1 _ _ => true
  | .cmp3H2 _ _ => true
  | .mov2 _ _ => true
  | _ => false

end Sys2Proof.Machine
end

