-- ==== Sys2Proof/Certificates/Slice0/Obligations.lean ====
section
/-! DEFINITION. What is claimed of the machine, for the provers.  Every statement about a state holds for every
state, so for every setting of the parameters and every content of registers, flags and memory at reset. -/

open Sys2Proof Sys2Proof.Machine

/-! ### Encoding -/

/-- Eleven words written out from the spec's encoding figures decode to the instructions they stand for, and two are
refused (95_test_vectors.md section 2.10): 0x4500 is called undefined by the manual, that 0x0001 is no HALT is the
spec's decision D6 (log 13). -/
def Obligations.DecodeReadsSpecWords : Prop :=
  decodeHalfword 0x0000#16 = .ok .halt ∧
  decodeHalfword 0x2BFF#16 = .ok (.cmp1 3 0xFF#8) ∧
  decodeHalfword 0x4091#16 = .ok (.asr 1 2) ∧
  decodeHalfword 0x4497#16 = .ok (.add1 15 2) ∧
  decodeHalfword 0x4540#16 = .ok (.cmp3H2 0 8) ∧
  decodeHalfword 0x4580#16 = .ok (.cmp3H1 8 0) ∧
  decodeHalfword 0x46BE#16 = .ok (.mov2 14 7) ∧
  decodeHalfword 0x6FC2#16 = .ok (.ldr 2 0 31#5) ∧
  decodeHalfword 0x7041#16 = .ok (.strb 1 0 1#5) ∧
  decodeHalfword 0xA702#16 = .ok (.add2 7 2#8) ∧
  decodeHalfword 0xD1FE#16 = .ok (.bne 0xFE#8) ∧
  decodeHalfword 0x4500#16 = .error .cmpBothLow ∧
  decodeHalfword 0x0001#16 = .error .haltUnusedField

/-- Rule R91's opcode map, row by row: a halfword that matches a row's mask and match is that row's instruction,
with its fields from the row's pattern. -/
def Obligations.DecodeFollowsOpcodeMap : Prop := ∀ w : Word,
  let low : Nat → LowReg := fun k => Fin.ofNat 8 (w.toNat / 2 ^ k)
  let d : Reg := Fin.ofNat 16 (w.toNat / 128 % 2 * 8 + w.toNat % 8)
  let g : Reg := Fin.ofNat 16 (w.toNat / 64 % 2 * 8 + w.toNat / 8 % 8)
  let i8 : BitVec 8 := BitVec.ofNat 8 w.toNat
  let i5 : BitVec 5 := BitVec.ofNat 5 (w.toNat / 64)
  (w &&& 0xFFFF#16 = 0x0000#16 → decodeHalfword w = .ok .halt) ∧
  (w &&& 0xF800#16 = 0x2000#16 → decodeHalfword w = .ok (.mov1 (low 8) i8)) ∧
  (w &&& 0xF800#16 = 0x2800#16 → decodeHalfword w = .ok (.cmp1 (low 8) i8)) ∧
  (w &&& 0xFFC0#16 = 0x4000#16 → decodeHalfword w = .ok (.and (low 0) (low 3))) ∧
  (w &&& 0xFFC0#16 = 0x4040#16 → decodeHalfword w = .ok (.eor (low 0) (low 3))) ∧
  (w &&& 0xFFC0#16 = 0x4080#16 → decodeHalfword w = .ok (.asr (low 0) (low 3))) ∧
  (w &&& 0xFFC0#16 = 0x40C0#16 → decodeHalfword w = .ok (.tst (low 0) (low 3))) ∧
  (w &&& 0xFFC0#16 = 0x4100#16 → decodeHalfword w = .ok (.neg (low 0) (low 3))) ∧
  (w &&& 0xFFC0#16 = 0x4140#16 → decodeHalfword w = .ok (.cmp2 (low 0) (low 3))) ∧
  (w &&& 0xFF00#16 = 0x4400#16 → decodeHalfword w = .ok (.add1 d g)) ∧
  (w &&& 0xFF80#16 = 0x4580#16 → decodeHalfword w = .ok (.cmp3H1 d g)) ∧
  (w &&& 0xFFC0#16 = 0x4540#16 → decodeHalfword w = .ok (.cmp3H2 d g)) ∧
  (w &&& 0xFF00#16 = 0x4600#16 → decodeHalfword w = .ok (.mov2 d g)) ∧
  (w &&& 0xF800#16 = 0x6000#16 → decodeHalfword w = .ok (.str (low 0) (low 3) i5)) ∧
  (w &&& 0xF800#16 = 0x6800#16 → decodeHalfword w = .ok (.ldr (low 0) (low 3) i5)) ∧
  (w &&& 0xF800#16 = 0x7000#16 → decodeHalfword w = .ok (.strb (low 0) (low 3) i5)) ∧
  (w &&& 0xF800#16 = 0x7800#16 → decodeHalfword w = .ok (.ldrb (low 0) (low 3) i5)) ∧
  (w &&& 0xF800#16 = 0xA000#16 → decodeHalfword w = .ok (.add2 (low 8) i8)) ∧
  (w &&& 0xFF00#16 = 0xD000#16 → decodeHalfword w = .ok (.beq i8)) ∧
  (w &&& 0xFF00#16 = 0xD100#16 → decodeHalfword w = .ok (.bne i8)) ∧
  (w &&& 0xFF00#16 = 0xD200#16 → decodeHalfword w = .ok (.bcs i8)) ∧
  (w &&& 0xFF00#16 = 0xD300#16 → decodeHalfword w = .ok (.bcc i8)) ∧
  (w &&& 0xFF00#16 = 0xD400#16 → decodeHalfword w = .ok (.bmi i8)) ∧
  (w &&& 0xFF00#16 = 0xD500#16 → decodeHalfword w = .ok (.bpl i8)) ∧
  (w &&& 0xFF00#16 = 0xD600#16 → decodeHalfword w = .ok (.bvs i8)) ∧
  (w &&& 0xFF00#16 = 0xD700#16 → decodeHalfword w = .ok (.bvc i8)) ∧
  (w &&& 0xFF00#16 = 0xD800#16 → decodeHalfword w = .ok (.bhi i8)) ∧
  (w &&& 0xFF00#16 = 0xD900#16 → decodeHalfword w = .ok (.bls i8)) ∧
  (w &&& 0xFF00#16 = 0xDA00#16 → decodeHalfword w = .ok (.bge i8)) ∧
  (w &&& 0xFF00#16 = 0xDB00#16 → decodeHalfword w = .ok (.blt i8)) ∧
  (w &&& 0xFF00#16 = 0xDC00#16 → decodeHalfword w = .ok (.bgt i8)) ∧
  (w &&& 0xFF00#16 = 0xDD00#16 → decodeHalfword w = .ok (.ble i8))

/-- Decoding an encoded well-formed instruction gives it back, every operand at every value (30_encoding.md rules
R81 to R91). -/
def Obligations.DecodeOfEncodeIsIdentity : Prop :=
  ∀ i : Instr, i.wellFormed = true → decodeHalfword (encode i) = .ok i

/-- Each word has one meaning: what a word decodes to is well-formed and encodes to that word (30_encoding.md rules
R91 and R98). -/
def Obligations.EncodeOfDecodeIsIdentity : Prop :=
  ∀ (w : Word) (i : Instr), decodeHalfword w = .ok i → i.wellFormed = true ∧ encode i = w

/-- The halfwords of rule R92's list, and no others, stop a step that fetches them; the stop itself is the spec's
decision D6 (log 13). -/
def Obligations.UndefinedEncodingsFault : Prop :=
  ∀ (s : State) (w : Word), s.halted = false → fetch s = .ok w →
    (isUndefinedEncoding w → step s = .fault .undefinedInstruction) ∧
    (¬ isUndefinedEncoding w → ∃ i : Instr, i.wellFormed = true ∧ encode i = w ∧ step s = exec i s)

/-! ### Reset, the step and the invariants -/

/-- Rule R190: reset leaves PC 0 and the machine not halted, and the halfword at address 0 is the first instruction
executed, whatever the registers, the flags and memory hold at reset (`RESET_REGS`, `MEM_INIT`) and whatever the
parameters are under which addresses 0 and 1 are storage. -/
def Obligations.ResetRunsAddressZero : Prop :=
  State.reset.pc = 0x0000#16 ∧ State.reset.halted = false ∧
  ∀ (r : Vector Word 15) (f : Flags) (m : Memory) (p : Params) (lo hi : Byte),
    let s : State := { State.reset with regs := r, flags := f, mem := m, params := p }
    isStorageHalf s 0x0000#16 → memRead m 0 = some lo → memRead m 1 = some hi →
    fetch s = .ok (hi ++ lo) ∧ ∀ i : Instr, decodeHalfword (hi ++ lo) = .ok i → step s = exec i s

/-- The invariant holds right after reset. -/
def Obligations.ResetMeetsInvariant : Prop := State.reset.Inv

/-- Every step keeps memory and the stored-to marks in their canonical form, and every marked address holds a value
(20_memory.md rules R61 and R73). -/
def Obligations.StepKeepsInvariant : Prop :=
  ∀ s t : State, s.Inv → step s = .next t → t.Inv

/-- The PC stays even, except where ADD(1) or MOV(2) writes it (10_state.md rule R29). -/
def Obligations.StepKeepsPcEven : Prop :=
  ∀ s t : State, s.pc.toNat % 2 = 0 → step s = .next t →
    t.pc.toNat % 2 = 0 ∨
      ∃ (w : Word) (i : Instr), fetch s = .ok w ∧ decodeHalfword w = .ok i ∧ destination i = some Reg.pc

/-- No step changes the parameters or status register bits 15:4, and the output events only grow (00_scope.md rule
R7, 10_state.md rule R33, 20_memory.md rule R64). -/
def Obligations.StepKeepsParameters : Prop :=
  ∀ s t : State, step s = .next t → t.params = s.params ∧ t.srUpper = s.srUpper ∧ s.outputs <+: t.outputs

/-- A step runs the decoded instruction: with two readable bytes at an even PC that decode to `i`, step is exec of
`i`, and adds nothing around it (70_reset_and_hazards.md rule R198). -/
def Obligations.StepRunsDecodedInstruction : Prop :=
  ∀ (s : State) (lo hi : Byte) (i : Instr),
    s.halted = false → s.pc.toNat % 2 = 0 → isStorageHalf s s.pc →
    memRead s.mem s.pc.toNat = some lo → memRead s.mem (s.pc.toNat + 1) = some hi →
    (s.params.fetchSeesStores = true ∨ (s.pc.toNat ∉ s.stored ∧ s.pc.toNat + 1 ∉ s.stored)) →
    decodeHalfword (hi ++ lo) = .ok i →
    decodeBytes [lo, hi] = .ok (i, []) ∧ step s = exec i s

/-- When a fetch stops, in the order of rule R173; the stops are the spec's decisions D1, D3, D5 and D9 (logs 4, 9,
14, 15, 23). -/
def Obligations.FetchFaultsInOrder : Prop :=
  ∀ s : State, s.halted = false →
    (s.pc.toNat % 2 = 1 → step s = .fault .oddPC) ∧
    (s.pc.toNat % 2 = 0 → isIO s s.pc = true ∨ isIO s (s.pc + 1#16) = true → step s = .fault .fetchFromIO) ∧
    (s.pc.toNat % 2 = 0 → isIO s s.pc = false → isIO s (s.pc + 1#16) = false →
      isPopulated s s.pc = false ∨ isPopulated s (s.pc + 1#16) = false → step s = .fault .unpopulatedAddress) ∧
    (s.pc.toNat % 2 = 0 → isStorageHalf s s.pc →
      memRead s.mem s.pc.toNat = none ∨ memRead s.mem (s.pc.toNat + 1) = none →
      step s = .fault .unwrittenMemory) ∧
    (s.pc.toNat % 2 = 0 → isStorageHalf s s.pc →
      memRead s.mem s.pc.toNat ≠ none → memRead s.mem (s.pc.toNat + 1) ≠ none →
      s.params.fetchSeesStores = false → s.pc.toNat ∈ s.stored ∨ s.pc.toNat + 1 ∈ s.stored →
      step s = .fault .fetchOfModifiedCode)

/-- A byte that STRB or STR stores into an instruction makes a later fetch of that instruction stop when
`FETCH_SEES_STORES` is false (20_memory.md rule R73, the spec's decision D9, log 9).  STR's two bytes are those at
the address and the next one, at an unaligned address under `UnalignedPolicy.arbitrary` too (log 8). -/
def Obligations.StoreIntoCodeStopsFetch : Prop :=
  ∀ (rd rb : LowReg) (imm : BitVec 5) (s t : State) (a p : Word),
    s.halted = false → s.params.fetchSeesStores = false → p.toNat % 2 = 0 → isStorageHalf s p →
    memRead t.mem p.toNat ≠ none → memRead t.mem (p.toNat + 1) ≠ none →
    (exec (.strb rd rb imm) s = .next t → effectiveAddress s rb (byteOffset imm) = .ok a → isStorageByte s a →
      a = p ∨ a = p + 1#16 → step (t.withPc p) = .fault .fetchOfModifiedCode) ∧
    (exec (.str rd rb imm) s = .next t → effectiveAddress s rb (halfOffset imm) = .ok a → isStorageHalf s a →
      a = p ∨ a = p + 1#16 ∨ a + 1#16 = p → step (t.withPc p) = .fault .fetchOfModifiedCode)

/-! ### HALT -/

/-- HALT enters the halted condition, leaves the PC at its own address and changes nothing else (43_misc.md rule
R160; the PC is the spec's decision D10, log 16). -/
def Obligations.HaltCompletes : Prop :=
  ∀ s : State, ∃ t, exec .halt s = .next t ∧ t.halted = true ∧ t.pc = s.pc ∧ t.flags = s.flags ∧
    keepsRegsExcept [] s t ∧ keepsMemory s t ∧ keepsFixed s t ∧ t.draws = s.draws

/-- HALT and nothing else sets the halted condition, and no instruction clears it (10_state.md rule R36). -/
def Obligations.OnlyHaltSetsHalted : Prop :=
  ∀ (i : Instr) (s t : State), exec i s = .next t → (t.halted = true ↔ s.halted = true ∨ i = .halt)

/-- A halted machine stays as it is for any number of steps: nothing is fetched and nothing changes.  That its step
answers the same state is the model's choice (log 16; 10_state.md rule R36). -/
def Obligations.HaltedMachineStaysAsItIs : Prop :=
  ∀ (k : Nat) (s : State), s.halted = true → Host.Core.run Sys2Proof.core k s = .next s

/-! ### Data processing -/

/-- ADD(1): the sum into the destination, all four flags from it; a sum written to the PC is a branch, and then no
`pc + 2` takes place.  That an odd sum stands in the PC is the spec's decision D5 (DESIGN CHOICE, log 14), the flags of
a PC write are its decision D11 (log 17). -/
def Obligations.Add1Result : Prop :=
  ∀ (rd rs : Reg) (s : State),
    (encode (.add1 rd rs)).toNat = 0x4400 + 128 * (rd.val / 8) + 64 * (rs.val / 8) + 8 * (rs.val % 8) + rd.val % 8 ∧
    (rd = Reg.pc ∨ nextInRange s → ∃ t, exec (.add1 rd rs) s = .next t ∧
      readReg t rd = readReg s rd + readReg s rs ∧ flagsShowAdd t (readReg s rd) (readReg s rs) ∧
      (rd ≠ Reg.pc → t.pc = s.pc + 2#16) ∧ keepsAllBut [rd] s t)

/-- ADD(2): the word-aligned address of the instruction plus four times the immediate, modulo 2^16; no flag. -/
def Obligations.Add2Result : Prop :=
  ∀ (rd : LowReg) (imm : BitVec 8) (s : State),
    (encode (.add2 rd imm)).toNat = 0xA000 + 256 * rd.val + imm.toNat ∧
    (nextInRange s → ∃ t, exec (.add2 rd imm) s = .next t ∧
      (readReg t rd.toReg).toNat = (s.pc.toNat / 4 * 4 + 4 * imm.toNat) % 65536 ∧
      t.flags = s.flags ∧ t.pc = s.pc + 2#16 ∧ keepsAllBut [rd.toReg] s t)

/-- AND: the bitwise AND into Rd, N and Z from it. -/
def Obligations.AndResult : Prop :=
  ∀ (rd rs : LowReg) (s : State),
    (encode (.and rd rs)).toNat = 0x4000 + 8 * rs.val + rd.val ∧
    (nextInRange s → ∃ t, exec (.and rd rs) s = .next t ∧
      readReg t rd.toReg = readReg s rd.toReg &&& readReg s rs.toReg ∧
      flagsShowNZ t (readReg s rd.toReg &&& readReg s rs.toReg) ∧ keepsCV s t ∧
      t.pc = s.pc + 2#16 ∧ keepsAllBut [rd.toReg] s t)

/-- EOR: the bitwise exclusive or into Rd, N and Z from it. -/
def Obligations.EorResult : Prop :=
  ∀ (rd rs : LowReg) (s : State),
    (encode (.eor rd rs)).toNat = 0x4040 + 8 * rs.val + rd.val ∧
    (nextInRange s → ∃ t, exec (.eor rd rs) s = .next t ∧
      readReg t rd.toReg = readReg s rd.toReg ^^^ readReg s rs.toReg ∧
      flagsShowNZ t (readReg s rd.toReg ^^^ readReg s rs.toReg) ∧ keepsCV s t ∧
      t.pc = s.pc + 2#16 ∧ keepsAllBut [rd.toReg] s t)

/-- TST: N and Z from the bitwise AND, no register. -/
def Obligations.TstResult : Prop :=
  ∀ (rd rs : LowReg) (s : State),
    (encode (.tst rd rs)).toNat = 0x40C0 + 8 * rs.val + rd.val ∧
    (nextInRange s → ∃ t, exec (.tst rd rs) s = .next t ∧
      flagsShowNZ t (readReg s rd.toReg &&& readReg s rs.toReg) ∧ keepsCV s t ∧
      t.pc = s.pc + 2#16 ∧ keepsAllBut [] s t)

/-- ASR, bit by bit: amount 0 leaves Rd and C; below 16 the bits move down, the sign fills and C is the last bit
shifted out; from 16 on everything is the sign.  N and Z always, V never.  The sign fill (90_conflicts.md C2) and the
result from 16 on (C1) are the spec's readings of damaged text (log 22). -/
def Obligations.AsrResult : Prop :=
  ∀ (rd rs : LowReg) (s : State),
    (encode (.asr rd rs)).toNat = 0x4080 + 8 * rs.val + rd.val ∧
    (nextInRange s → ∃ t, exec (.asr rd rs) s = .next t ∧
      let a := readReg s rd.toReg
      let n := (readReg s rs.toReg).toNat % 256
      (n = 0 → readReg t rd.toReg = a ∧ t.flags.c = s.flags.c) ∧
      (0 < n → n < 16 → (∀ k : Nat, k < 16 →
          (readReg t rd.toReg).getLsbD k = if k + n < 16 then a.getLsbD (k + n) else a.getLsbD 15) ∧
        t.flags.c = a.getLsbD (n - 1)) ∧
      (16 ≤ n → readReg t rd.toReg = (if a.getLsbD 15 = true then 0xFFFF#16 else 0x0000#16) ∧
        t.flags.c = a.getLsbD 15) ∧
      flagsShowNZ t (readReg t rd.toReg) ∧ t.flags.v = s.flags.v ∧
      t.pc = s.pc + 2#16 ∧ keepsAllBut [rd.toReg] s t)

/-- For amounts 1 to 15, ASR is floor division of the signed value by 2^n (40_data_processing.md rules R113 and
R128). -/
def Obligations.AsrIsFloorDivision : Prop :=
  ∀ (rd rs : LowReg) (s t : State), exec (.asr rd rs) s = .next t →
    let n := (readReg s rs.toReg).toNat % 256
    0 < n → n < 16 →
      ((2 : Int) ^ n * (readReg t rd.toReg).toInt ≤ (readReg s rd.toReg).toInt ∧
        (readReg s rd.toReg).toInt < (2 : Int) ^ n * ((readReg t rd.toReg).toInt + 1))

/-- CMP(1): the flags of Rd minus the zero-extended immediate, no register. -/
def Obligations.Cmp1Result : Prop :=
  ∀ (rd : LowReg) (imm : BitVec 8) (s : State),
    (encode (.cmp1 rd imm)).toNat = 0x2800 + 256 * rd.val + imm.toNat ∧
    (nextInRange s → ∃ t, exec (.cmp1 rd imm) s = .next t ∧
      flagsShowSub t (readReg s rd.toReg) (BitVec.ofNat 16 imm.toNat) ∧
      t.pc = s.pc + 2#16 ∧ keepsAllBut [] s t)

/-- CMP(2): the flags of Rd minus Rs, two low registers, no register written. -/
def Obligations.Cmp2Result : Prop :=
  ∀ (rd rs : LowReg) (s : State),
    (encode (.cmp2 rd rs)).toNat = 0x4140 + 8 * rs.val + rd.val ∧
    (nextInRange s → ∃ t, exec (.cmp2 rd rs) s = .next t ∧
      flagsShowSub t (readReg s rd.toReg) (readReg s rs.toReg) ∧
      t.pc = s.pc + 2#16 ∧ keepsAllBut [] s t)

/-- CMP(3), both rows: the flags of Rd minus Rs, one of them a high register or the PC; no register is written, the
PC not even as first operand; with two low registers the encoding is no instruction.  That a term of either
constructor with two low registers, to which no word decodes, executes as the same comparison is the model's choice
(DESIGN CHOICE, log 26). -/
def Obligations.Cmp3Result : Prop :=
  (∀ w : Word, 0x4500 ≤ w.toNat → w.toNat ≤ 0x453F → decodeHalfword w = .error .cmpBothLow) ∧
  ∀ (i : Instr) (rd rs : Reg) (s : State), (i = .cmp3H1 rd rs ∨ i = .cmp3H2 rd rs) →
    ((encode i).toNat =
        0x4500 + 128 * (rd.val / 8) + 64 * (rs.val / 8) + 8 * (rs.val % 8) + rd.val % 8) ∧
    (nextInRange s → ∃ t, exec i s = .next t ∧
      flagsShowSub t (readReg s rd) (readReg s rs) ∧
      t.pc = s.pc + 2#16 ∧ keepsAllBut [] s t)

/-- MOV(1): the zero-extended immediate into Rd, N always 0, Z from it. -/
def Obligations.Mov1Result : Prop :=
  ∀ (rd : LowReg) (imm : BitVec 8) (s : State),
    (encode (.mov1 rd imm)).toNat = 0x2000 + 256 * rd.val + imm.toNat ∧
    (nextInRange s → ∃ t, exec (.mov1 rd imm) s = .next t ∧
      (readReg t rd.toReg).toNat = imm.toNat ∧ t.flags.n = false ∧ (t.flags.z = true ↔ imm.toNat = 0) ∧
      keepsCV s t ∧ t.pc = s.pc + 2#16 ∧ keepsAllBut [rd.toReg] s t)

/-- MOV(2): Rs into Rd, N and Z from it; a value written to the PC is a branch, and then no `pc + 2` takes place.
That an odd value stands in the PC is the spec's decision D5 (DESIGN CHOICE, log 14), the flags of a PC write are its
decision D11 (log 17). -/
def Obligations.Mov2Result : Prop :=
  ∀ (rd rs : Reg) (s : State),
    (encode (.mov2 rd rs)).toNat = 0x4600 + 128 * (rd.val / 8) + 64 * (rs.val / 8) + 8 * (rs.val % 8) + rd.val % 8 ∧
    (rd = Reg.pc ∨ nextInRange s → ∃ t, exec (.mov2 rd rs) s = .next t ∧
      readReg t rd = readReg s rs ∧ flagsShowNZ t (readReg s rs) ∧ keepsCV s t ∧
      (rd ≠ Reg.pc → t.pc = s.pc + 2#16) ∧ keepsAllBut [rd] s t)

/-- NEG: 0 - Rs into Rd, the flags of that subtraction: C exactly for 0, V exactly for 0x8000. -/
def Obligations.NegResult : Prop :=
  ∀ (rd rs : LowReg) (s : State),
    (encode (.neg rd rs)).toNat = 0x4100 + 8 * rs.val + rd.val ∧
    (nextInRange s → ∃ t, exec (.neg rd rs) s = .next t ∧
      readReg t rd.toReg = 0x0000#16 - readReg s rs.toReg ∧
      flagsShowNZ t (0x0000#16 - readReg s rs.toReg) ∧
      (t.flags.c = true ↔ readReg s rs.toReg = 0x0000#16) ∧
      (t.flags.v = true ↔ readReg s rs.toReg = 0x8000#16) ∧
      t.pc = s.pc + 2#16 ∧ keepsAllBut [rd.toReg] s t)

/-- AddFlags by the bit test: overflow exactly when both operands have one sign and the result the other
(00_scope.md section 4, an inference the spec marks as derived). -/
def Obligations.AddFlagsBitTest : Prop :=
  ∀ a b : Word, (addFlags a b).r = a + b ∧
    ((addFlags a b).c = true ↔ (a.setWidth 17 + b.setWidth 17 : BitVec 17).getLsbD 16 = true) ∧
    ((addFlags a b).v = true ↔ a.getLsbD 15 = b.getLsbD 15 ∧ (a + b).getLsbD 15 ≠ a.getLsbD 15)

/-- SubFlags by the adder: result and carry of `a + NOT b + 1`, and overflow by the bit test (00_scope.md section 4,
an inference the spec marks as derived; 90_conflicts.md C3). -/
def Obligations.SubFlagsMatchAdder : Prop :=
  ∀ a b : Word,
    let sum : BitVec 17 := a.setWidth 17 + (~~~b).setWidth 17 + 1#17
    (subFlags a b).r = sum.setWidth 16 ∧ (subFlags a b).c = sum.getLsbD 16 ∧
    ((subFlags a b).v = true ↔ a.getLsbD 15 ≠ b.getLsbD 15 ∧ (a - b).getLsbD 15 ≠ a.getLsbD 15) ∧
    (subFlags a 0x0000#16).c = true

/-! ### Loads and stores -/

/-- LDR from storage at an address divisible by 4: the two bytes, the one at the higher address in bits 15:8; no
flag.  The spec rebuilt LDR's Operation (log 22). -/
def Obligations.LdrResult : Prop :=
  ∀ (rd rb : LowReg) (imm : BitVec 5) (s : State) (a : Word) (lo hi : Byte),
    (encode (.ldr rd rb imm)).toNat = 0x6800 + 64 * imm.toNat + 8 * rb.val + rd.val ∧
    (addressInRange s rb (4 * imm.toNat) → nextInRange s →
      a = readReg s rb.toReg + BitVec.ofNat 16 (4 * imm.toNat) → a.toNat % 4 = 0 → isStorageHalf s a →
      memRead s.mem a.toNat = some lo → memRead s.mem (a.toNat + 1) = some hi →
      ∃ t, exec (.ldr rd rb imm) s = .next t ∧ readReg t rd.toReg = hi ++ lo ∧
        t.flags = s.flags ∧ t.pc = s.pc + 2#16 ∧ keepsAllBut [rd.toReg] s t)

/-- LDRB from storage: the byte, zero-extended; no flag, no alignment rule. -/
def Obligations.LdrbResult : Prop :=
  ∀ (rd rb : LowReg) (imm : BitVec 5) (s : State) (a : Word) (b : Byte),
    (encode (.ldrb rd rb imm)).toNat = 0x7800 + 64 * imm.toNat + 8 * rb.val + rd.val ∧
    (addressInRange s rb imm.toNat → nextInRange s →
      a = readReg s rb.toReg + BitVec.ofNat 16 imm.toNat → isStorageByte s a →
      memRead s.mem a.toNat = some b →
      ∃ t, exec (.ldrb rd rb imm) s = .next t ∧ (readReg t rd.toReg).toNat = b.toNat ∧
        t.flags = s.flags ∧ t.pc = s.pc + 2#16 ∧ keepsAllBut [rd.toReg] s t)

/-- STR to storage at an address divisible by 4: Rd's bits 7:0 at the address, bits 15:8 at the next one, every
other byte as before; no register, no flag.  The marks in `stored` are the model's form (DESIGN CHOICE, log 25) of the
history that 20_memory.md rule R73 and the spec's decision D9 ask for. -/
def Obligations.StrResult : Prop :=
  ∀ (rd rb : LowReg) (imm : BitVec 5) (s : State) (a : Word),
    (encode (.str rd rb imm)).toNat = 0x6000 + 64 * imm.toNat + 8 * rb.val + rd.val ∧
    (addressInRange s rb (4 * imm.toNat) → nextInRange s →
      a = readReg s rb.toReg + BitVec.ofNat 16 (4 * imm.toNat) → a.toNat % 4 = 0 → isStorageHalf s a →
      ∃ t, exec (.str rd rb imm) s = .next t ∧
        memRead t.mem a.toNat = some ((readReg s rd.toReg).extractLsb' 0 8) ∧
        memRead t.mem (a.toNat + 1) = some ((readReg s rd.toReg).extractLsb' 8 8) ∧
        (∀ x : Nat, x ≠ a.toNat → x ≠ a.toNat + 1 → memRead t.mem x = memRead s.mem x) ∧
        (∀ x : Nat, x ∈ t.stored ↔ x ∈ s.stored ∨ x = a.toNat ∨ x = a.toNat + 1) ∧
        t.outputs = s.outputs ∧ t.flags = s.flags ∧ t.pc = s.pc + 2#16 ∧
        keepsRegsExcept [] s t ∧ keepsFixed s t ∧ t.halted = s.halted ∧ t.draws = s.draws)

/-- STRB to storage: Rd's bits 7:0 at the address, every other byte as before; no register, no flag, no alignment
rule.  The mark in `stored` is the model's form (DESIGN CHOICE, log 25) of the history that 20_memory.md rule R73 and
the spec's decision D9 ask for. -/
def Obligations.StrbResult : Prop :=
  ∀ (rd rb : LowReg) (imm : BitVec 5) (s : State) (a : Word),
    (encode (.strb rd rb imm)).toNat = 0x7000 + 64 * imm.toNat + 8 * rb.val + rd.val ∧
    (addressInRange s rb imm.toNat → nextInRange s →
      a = readReg s rb.toReg + BitVec.ofNat 16 imm.toNat → isStorageByte s a →
      ∃ t, exec (.strb rd rb imm) s = .next t ∧
        memRead t.mem a.toNat = some ((readReg s rd.toReg).extractLsb' 0 8) ∧
        (∀ x : Nat, x ≠ a.toNat → memRead t.mem x = memRead s.mem x) ∧
        (∀ x : Nat, x ∈ t.stored ↔ x ∈ s.stored ∨ x = a.toNat) ∧
        t.outputs = s.outputs ∧ t.flags = s.flags ∧ t.pc = s.pc + 2#16 ∧
        keepsRegsExcept [] s t ∧ keepsFixed s t ∧ t.halted = s.halted ∧ t.draws = s.draws)

/-- Under `UnalignedPolicy.fault`, LDR and STR at an address not divisible by 4 stop: the spec's decision D4
(log 8). -/
def Obligations.UnalignedAccessFaults : Prop :=
  ∀ (rd rb : LowReg) (imm : BitVec 5) (s : State), s.params.unalignedPolicy = .fault →
    addressInRange s rb (4 * imm.toNat) →
    (readReg s rb.toReg + BitVec.ofNat 16 (4 * imm.toNat)).toNat % 4 ≠ 0 →
    exec (.ldr rd rb imm) s = .fault .unalignedHalfword ∧ exec (.str rd rb imm) s = .fault .unalignedHalfword

/-- Under `UnalignedPolicy.arbitrary`, LDR at an address not divisible by 4 loads the next free halfword, whatever
it is, and nothing else changes: the weaker alternative the spec names (log 8).  That it does so also where a byte holds
no value is the model's choice (DESIGN CHOICE, log 29). -/
def Obligations.UnalignedLdrLoadsFreeValue : Prop :=
  ∀ (rd rb : LowReg) (imm : BitVec 5) (s : State) (a : Word),
    s.params.unalignedPolicy = .arbitrary → addressInRange s rb (4 * imm.toNat) → nextInRange s →
    a = readReg s rb.toReg + BitVec.ofNat 16 (4 * imm.toNat) → a.toNat % 4 ≠ 0 → isStorageHalf s a →
    ∃ t, exec (.ldr rd rb imm) s = .next t ∧ readReg t rd.toReg = Config.freeHalf s.draws ∧
      t.draws = s.draws + 1 ∧ t.flags = s.flags ∧ t.pc = s.pc + 2#16 ∧
      keepsRegsExcept [rd.toReg] s t ∧ keepsMemory s t ∧ keepsFixed s t ∧ t.halted = s.halted

/-- Under `UnalignedPolicy.arbitrary`, STR at an address not divisible by 4 leaves exactly the two bytes at the
address and the next one (modulo 2^16) with the bytes of the next free halfword, whatever it is (log 8). -/
def Obligations.UnalignedStrStoresFreeValue : Prop :=
  ∀ (rd rb : LowReg) (imm : BitVec 5) (s : State) (a : Word),
    s.params.unalignedPolicy = .arbitrary → addressInRange s rb (4 * imm.toNat) → nextInRange s →
    a = readReg s rb.toReg + BitVec.ofNat 16 (4 * imm.toNat) → a.toNat % 4 ≠ 0 → isStorageHalf s a →
    ∃ t, exec (.str rd rb imm) s = .next t ∧
      memRead t.mem a.toNat = some ((Config.freeHalf s.draws).extractLsb' 0 8) ∧
      memRead t.mem (a + 1#16).toNat = some ((Config.freeHalf s.draws).extractLsb' 8 8) ∧
      (∀ x : Nat, x ≠ a.toNat → x ≠ (a + 1#16).toNat → memRead t.mem x = memRead s.mem x) ∧
      t.draws = s.draws + 1 ∧ t.outputs = s.outputs ∧ t.flags = s.flags ∧ t.pc = s.pc + 2#16 ∧
      keepsRegsExcept [] s t ∧ keepsFixed s t ∧ t.halted = s.halted

/-- Loads from memory-mapped I/O complete with the next free value, whatever it is, and change no memory
(93_implementation_defined.md U15; the form of the free value is the model's, log 11).  LDR does so at every address
divisible by 4, and under `UnalignedPolicy.arbitrary` at every other one (log 8), with either byte in the region,
whatever the other is: that it completes also where the other byte is not populated, or is populated and holds no value,
is the model's choice (DESIGN CHOICE, logs 28, 29 and 30). -/
def Obligations.LoadsFromIoAreFree : Prop :=
  ∀ (rd rb : LowReg) (imm : BitVec 5) (s : State) (a : Word), nextInRange s →
    (addressInRange s rb imm.toNat → a = readReg s rb.toReg + BitVec.ofNat 16 imm.toNat → isIO s a = true →
      ∃ t, exec (.ldrb rd rb imm) s = .next t ∧ (readReg t rd.toReg).toNat = (Config.freeByte s.draws).toNat ∧
        t.draws = s.draws + 1 ∧ t.flags = s.flags ∧ t.pc = s.pc + 2#16 ∧
        keepsRegsExcept [rd.toReg] s t ∧ keepsMemory s t ∧ keepsFixed s t ∧ t.halted = s.halted) ∧
    (addressInRange s rb (4 * imm.toNat) → a = readReg s rb.toReg + BitVec.ofNat 16 (4 * imm.toNat) →
      a.toNat % 4 = 0 ∨ s.params.unalignedPolicy = .arbitrary → isIO s a = true ∨ isIO s (a + 1#16) = true →
      ∃ t, exec (.ldr rd rb imm) s = .next t ∧ readReg t rd.toReg = Config.freeHalf s.draws ∧
        t.draws = s.draws + 1 ∧ t.flags = s.flags ∧ t.pc = s.pc + 2#16 ∧
        keepsRegsExcept [rd.toReg] s t ∧ keepsMemory s t ∧ keepsFixed s t ∧ t.halted = s.halted)

/-- Stores to memory-mapped I/O are appended to the output events, width 1 or 2, and change no memory (20_memory.md
rule R64, the spec's decision D3, logs 12 and 28).  Under `UnalignedPolicy.arbitrary` an STR at an address not
divisible by 4 sends the next free halfword, whatever it is (log 8). -/
def Obligations.StoresToIoAreEvents : Prop :=
  ∀ (rd rb : LowReg) (imm : BitVec 5) (s : State) (a : Word), nextInRange s →
    (addressInRange s rb imm.toNat → a = readReg s rb.toReg + BitVec.ofNat 16 imm.toNat → isIO s a = true →
      ∃ t, exec (.strb rd rb imm) s = .next t ∧
        t.outputs = s.outputs ++ [.byte a ((readReg s rd.toReg).extractLsb' 0 8)] ∧
        t.mem = s.mem ∧ t.stored = s.stored ∧ t.flags = s.flags ∧ t.pc = s.pc + 2#16 ∧
        keepsRegsExcept [] s t ∧ keepsFixed s t ∧ t.halted = s.halted ∧ t.draws = s.draws) ∧
    (addressInRange s rb (4 * imm.toNat) → a = readReg s rb.toReg + BitVec.ofNat 16 (4 * imm.toNat) →
      isIO s a = true ∨ isIO s (a + 1#16) = true →
      (a.toNat % 4 = 0 → ∃ t, exec (.str rd rb imm) s = .next t ∧
        t.outputs = s.outputs ++ [.halfword a (readReg s rd.toReg)] ∧
        t.mem = s.mem ∧ t.stored = s.stored ∧ t.flags = s.flags ∧ t.pc = s.pc + 2#16 ∧
        keepsRegsExcept [] s t ∧ keepsFixed s t ∧ t.halted = s.halted ∧ t.draws = s.draws) ∧
      (a.toNat % 4 ≠ 0 → s.params.unalignedPolicy = .arbitrary → ∃ t, exec (.str rd rb imm) s = .next t ∧
        t.outputs = s.outputs ++ [.halfword a (Config.freeHalf s.draws)] ∧
        t.mem = s.mem ∧ t.stored = s.stored ∧ t.flags = s.flags ∧ t.pc = s.pc + 2#16 ∧
        keepsRegsExcept [] s t ∧ keepsFixed s t ∧ t.halted = s.halted ∧ t.draws = s.draws + 1))

/-- A load or store of an address that is neither populated nor I/O stops (20_memory.md rule R63, the spec's
decision D1, log 23). -/
def Obligations.UnpopulatedAccessFaults : Prop :=
  ∀ (rd rb : LowReg) (imm : BitVec 5) (s : State) (a : Word),
    (addressInRange s rb imm.toNat → a = readReg s rb.toReg + BitVec.ofNat 16 imm.toNat →
      isIO s a = false → isPopulated s a = false →
      exec (.ldrb rd rb imm) s = .fault .unpopulatedAddress ∧
      exec (.strb rd rb imm) s = .fault .unpopulatedAddress) ∧
    (addressInRange s rb (4 * imm.toNat) → a = readReg s rb.toReg + BitVec.ofNat 16 (4 * imm.toNat) →
      a.toNat % 4 = 0 ∨ s.params.unalignedPolicy = .arbitrary →
      isIO s a = false → isIO s (a + 1#16) = false →
      isPopulated s a = false ∨ isPopulated s (a + 1#16) = false →
      exec (.ldr rd rb imm) s = .fault .unpopulatedAddress ∧
      exec (.str rd rb imm) s = .fault .unpopulatedAddress)

/-- A load of a byte of storage that nothing has given a value stops (10_state.md rule R40, the spec's decision D1,
log 4). -/
def Obligations.UnwrittenLoadFaults : Prop :=
  ∀ (rd rb : LowReg) (imm : BitVec 5) (s : State) (a : Word),
    (addressInRange s rb imm.toNat → a = readReg s rb.toReg + BitVec.ofNat 16 imm.toNat → isStorageByte s a →
      memRead s.mem a.toNat = none → exec (.ldrb rd rb imm) s = .fault .unwrittenMemory) ∧
    (addressInRange s rb (4 * imm.toNat) → a = readReg s rb.toReg + BitVec.ofNat 16 (4 * imm.toNat) →
      a.toNat % 4 = 0 → isStorageHalf s a →
      memRead s.mem a.toNat = none ∨ memRead s.mem (a.toNat + 1) = none →
      exec (.ldr rd rb imm) s = .fault .unwrittenMemory)

/-- Under `strict`, a load or store whose unreduced address passes 0xFFFF, and a taken branch whose unreduced target
leaves 0 .. 0xFFFF, stop (20_memory.md rule R62, the spec's decision D7, log 7). -/
def Obligations.AddressWrapFaults : Prop :=
  ∀ s : State, s.params.wrapPolicy = .strict →
    (∀ (rd rb : LowReg) (imm : BitVec 5),
      (65536 ≤ (readReg s rb.toReg).toNat + imm.toNat →
        exec (.ldrb rd rb imm) s = .fault .addressWrap ∧ exec (.strb rd rb imm) s = .fault .addressWrap) ∧
      (65536 ≤ (readReg s rb.toReg).toNat + 4 * imm.toNat →
        exec (.ldr rd rb imm) s = .fault .addressWrap ∧ exec (.str rd rb imm) s = .fault .addressWrap)) ∧
    (∀ (i : Instr) (c : Cond) (off : BitVec 8), branchOf i = some (c, off) → conditionTable c s.flags →
      ((s.pc.toNat : Int) + 2 * off.toInt < 0 ∨ 65536 ≤ (s.pc.toNat : Int) + 2 * off.toInt) →
      exec i s = .fault .addressWrap)

/-- The frame of the stores in every setting: of memory only the bytes at the address stored to (and for STR the
next one) can change, and no register, no flag, no condition. -/
def Obligations.StoreFrame : Prop :=
  ∀ (rd rb : LowReg) (imm : BitVec 5) (s t : State) (a : Word),
    (exec (.str rd rb imm) s = .next t → effectiveAddress s rb (halfOffset imm) = .ok a →
      (∀ x : Nat, x ≠ a.toNat → x ≠ (a + 1#16).toNat → memRead t.mem x = memRead s.mem x) ∧
      keepsRegsExcept [] s t ∧ t.flags = s.flags ∧ t.halted = s.halted ∧ keepsFixed s t ∧ t.pc = s.pc + 2#16) ∧
    (exec (.strb rd rb imm) s = .next t → effectiveAddress s rb (byteOffset imm) = .ok a →
      (∀ x : Nat, x ≠ a.toNat → memRead t.mem x = memRead s.mem x) ∧
      keepsRegsExcept [] s t ∧ t.flags = s.flags ∧ t.halted = s.halted ∧ keepsFixed s t ∧ t.pc = s.pc + 2#16)

/-- A halfword stored is the halfword loaded, and LDRB sees its two bytes (20_memory.md rules R54 and R61). -/
def Obligations.StoredHalfwordIsLoaded : Prop :=
  ∀ (rd rb q : LowReg) (imm k : BitVec 5) (s t u : State) (a : Word),
    exec (.str rd rb imm) s = .next t → effectiveAddress s rb (halfOffset imm) = .ok a →
    a.toNat % 4 = 0 → isStorageHalf s a →
    (exec (.ldr q rb imm) t = .next u → readReg u q.toReg = readReg s rd.toReg) ∧
    (exec (.ldrb q rb k) t = .next u →
      (effectiveAddress s rb (byteOffset k) = .ok a →
        (readReg u q.toReg).toNat = (readReg s rd.toReg).toNat % 256) ∧
      (effectiveAddress s rb (byteOffset k) = .ok (a + 1#16) →
        (readReg u q.toReg).toNat = (readReg s rd.toReg).toNat / 256))

/-- Two bytes stored side by side are the halfword loaded, the one at the higher address in bits 15:8 (20_memory.md
rule R54). -/
def Obligations.StoredBytesAreLoadedAsHalfword : Prop :=
  ∀ (r1 r2 rb q : LowReg) (i1 i2 imm : BitVec 5) (s t u v : State) (a : Word),
    exec (.strb r1 rb i1) s = .next t → exec (.strb r2 rb i2) t = .next u → exec (.ldr q rb imm) u = .next v →
    effectiveAddress s rb (byteOffset i1) = .ok a → effectiveAddress s rb (byteOffset i2) = .ok (a + 1#16) →
    effectiveAddress s rb (halfOffset imm) = .ok a → a.toNat % 4 = 0 → isStorageHalf s a →
    (readReg v q.toReg).toNat = (readReg s r2.toReg).toNat % 256 * 256 + (readReg s r1.toReg).toNat % 256

/-! ### Branches -/

/-- B: when the table's condition holds, the PC moves by twice the signed offset, modulo 2^16, from the address of
the B itself; when it does not, by 2; nothing else changes.  Condition numbers 14 and 15 are no instruction.  The "or" of ls and le is an operator the
spec restored (rule R151, 91_not_in_source.md N5, log 22). -/
def Obligations.BranchResult : Prop :=
  (∀ w : Word, 0xDE00 ≤ w.toNat → w.toNat ≤ 0xDFFF → decodeHalfword w = .error .condition) ∧
  ∀ (i : Instr) (c : Cond) (off : BitVec 8) (s : State), branchOf i = some (c, off) →
    (encode i).toNat = 0xD000 + 256 * conditionNumber c + off.toNat ∧
    (conditionTable c s.flags → targetInRange s off →
      ∃ a : Word, exec i s = .next (s.withPc a) ∧ (a.toNat : Int) = (s.pc.toNat + 2 * off.toInt) % 65536) ∧
    (¬ conditionTable c s.flags → nextInRange s → exec i s = .next (s.withPc (s.pc + 2#16)))

/-- After a comparison of `a` with `b` the conditions mean what their names say of `a` and `b` (42_branch.md
section on the branch conditions, an inference the spec marks as derived; ls and le as log 22 has them). -/
def Obligations.ConditionsAfterComparison : Prop :=
  ∀ (i : Instr) (s t : State) (a b : Word), comparands s i = some (a, b) → exec i s = .next t →
    (conditionHolds .eq t.flags = true ↔ a = b) ∧ (conditionHolds .ne t.flags = true ↔ a ≠ b) ∧
    (conditionHolds .cs t.flags = true ↔ b.toNat ≤ a.toNat) ∧
    (conditionHolds .cc t.flags = true ↔ a.toNat < b.toNat) ∧
    (conditionHolds .hi t.flags = true ↔ b.toNat < a.toNat) ∧
    (conditionHolds .ls t.flags = true ↔ a.toNat ≤ b.toNat) ∧
    (conditionHolds .ge t.flags = true ↔ b.toInt ≤ a.toInt) ∧
    (conditionHolds .lt t.flags = true ↔ a.toInt < b.toInt) ∧
    (conditionHolds .gt t.flags = true ↔ b.toInt < a.toInt) ∧
    (conditionHolds .le t.flags = true ↔ a.toInt ≤ b.toInt)

/-- A taken branch to itself runs for ever: no fault, never halted, the same state after any number of steps
(42_branch.md rule R150's corner case, 95_test_vectors.md P6). -/
def Obligations.BranchToItselfRunsForever : Prop :=
  ∀ (k : Nat) (s : State) (w : Word) (i : Instr) (c : Cond), s.halted = false → fetch s = .ok w →
    decodeHalfword w = .ok i → branchOf i = some (c, 0x00#8) → conditionTable c s.flags →
    Host.Core.run Sys2Proof.core k s = .next s

/-! ### Tables over all instructions -/

/-- The frame over all instructions: an instruction writes no register among R0 to R14 but the one rule R25's table
gives it. -/
def Obligations.RegistersWrittenByTable : Prop :=
  ∀ (i : Instr) (s t : State), exec i s = .next t →
    ∀ r : Reg, r ≠ Reg.pc → destination i ≠ some r → readReg t r = readReg s r

/-- The frame over all instructions: the flags that rule R34's table marks as unaffected keep their values. -/
def Obligations.FlagsKeptByTable : Prop :=
  ∀ (i : Instr) (s t : State), exec i s = .next t →
    match i with
    | .add1 _ _ => True
    | .cmp1 _ _ => True
    | .cmp2 _ _ => True
    | .cmp3H1 _ _ => True
    | .cmp3H2 _ _ => True
    | .neg _ _ => True
    | .and _ _ => keepsCV s t
    | .eor _ _ => keepsCV s t
    | .tst _ _ => keepsCV s t
    | .mov1 _ _ => keepsCV s t ∧ t.flags.n = false
    | .mov2 _ _ => keepsCV s t
    | .asr _ rs => t.flags.v = s.flags.v ∧ ((readReg s rs.toReg).toNat % 256 = 0 → t.flags.c = s.flags.c)
    | _ => t.flags = s.flags

/-- The frame over all instructions: only STR and STRB change memory, mark an address or send to a device. -/
def Obligations.OnlyStoresChangeMemory : Prop :=
  ∀ (i : Instr) (s t : State), exec i s = .next t → isStore i = false → keepsMemory s t

/-- Where the PC goes, over all instructions: HALT leaves it, a written PC stands, a taken B moves it, everything
else adds 2 (10_state.md section 3, 42_branch.md).  That HALT leaves it is the spec's decision D10 (log 16), and that
an odd value written stands is its decision D5 (log 14). -/
def Obligations.PcAfterEachInstruction : Prop :=
  ∀ (i : Instr) (s t : State), exec i s = .next t →
    (i = .halt → t.pc = s.pc) ∧
    (∀ rs : Reg, i = .add1 Reg.pc rs → t.pc = s.pc + readReg s rs) ∧
    (∀ rs : Reg, i = .mov2 Reg.pc rs → t.pc = readReg s rs) ∧
    (∀ (c : Cond) (off : BitVec 8), branchOf i = some (c, off) →
      (conditionTable c s.flags → t.pc = s.pc + BitVec.ofInt 16 (2 * off.toInt)) ∧
      (¬ conditionTable c s.flags → t.pc = s.pc + 2#16)) ∧
    (i ≠ .halt → destination i ≠ some Reg.pc → branchOf i = none → t.pc = s.pc + 2#16)

/-- Under `strict`, the last halfword of memory is not left by `pc + 2`: no instruction that would take it answers a
next state there, and those without a memory access stop with `addressWrap` (10_state.md rule R28, the spec's
decision D7, log 7). -/
def Obligations.LastHalfwordIsNotLeft : Prop :=
  ∀ (i : Instr) (s : State), s.params.wrapPolicy = .strict → 65536 ≤ s.pc.toNat + 2 →
    i ≠ .halt → destination i ≠ some Reg.pc →
    (branchOf i = none → ∀ t : State, exec i s ≠ .next t) ∧
    (∀ (c : Cond) (off : BitVec 8), branchOf i = some (c, off) → ¬ conditionTable c s.flags →
      exec i s = .fault .addressWrap) ∧
    ((∃ (a b : Word), comparands s i = some (a, b)) ∨ (∃ rd rs, i = .and rd rs ∨ i = .eor rd rs ∨ i = .asr rd rs ∨
        i = .tst rd rs ∨ i = .neg rd rs) ∨ (∃ rd imm, i = .mov1 rd imm ∨ i = .add2 rd imm) ∨
        (∃ rd rs, i = .add1 rd rs ∨ i = .mov2 rd rs) →
      exec i s = .fault .addressWrap)

/-- The status register's layout: N, Z, C, V in bits 3, 2, 1, 0, and bits 15:4 above them. -/
def Obligations.StatusRegisterLayout : Prop :=
  ∀ s : State, s.statusRegister.getLsbD 3 = s.flags.n ∧ s.statusRegister.getLsbD 2 = s.flags.z ∧
    s.statusRegister.getLsbD 1 = s.flags.c ∧ s.statusRegister.getLsbD 0 = s.flags.v ∧
    s.statusRegister.extractLsb' 4 12 = s.srUpper

/-- No instruction outside Format 5 can read or write R8 to R14: run on two states that differ only there, it faults
alike, or its next states differ only there and leave those registers alone. -/
def Obligations.HighRegistersOnlyThroughFormat5 : Prop :=
  ∀ (i : Instr) (s : State) (regs : Vector Word 15), isHiOperation i = false →
    (∀ r : LowReg, readReg (s.withRegs regs) r.toReg = readReg s r.toReg) →
    match exec i s, exec i (s.withRegs regs) with
    | .next t, .next u =>
      (∀ r : LowReg, readReg u r.toReg = readReg t r.toReg) ∧
      (∀ r : Reg, 8 ≤ r.val → r ≠ Reg.pc →
        readReg t r = readReg s r ∧ readReg u r = readReg (s.withRegs regs) r) ∧
      u.withRegs t.regs = t
    | .fault f, .fault g => f = g
    | _, _ => False

/-- The only reader of the flags is B: any other instruction, run on two states that differ only in the flags, faults
alike, or its next states differ only in the flags, and there each flag is alike or kept in both. -/
def Obligations.FlagsReadOnlyByBranches : Prop :=
  ∀ (i : Instr) (s : State) (f : Flags), branchOf i = none →
    match exec i s, exec i (s.withFlags f) with
    | .next t, .next u =>
      u.withFlags t.flags = t ∧
      (u.flags.n = t.flags.n ∨ (t.flags.n = s.flags.n ∧ u.flags.n = f.n)) ∧
      (u.flags.z = t.flags.z ∨ (t.flags.z = s.flags.z ∧ u.flags.z = f.z)) ∧
      (u.flags.c = t.flags.c ∨ (t.flags.c = s.flags.c ∧ u.flags.c = f.c)) ∧
      (u.flags.v = t.flags.v ∨ (t.flags.v = s.flags.v ∧ u.flags.v = f.v))
    | .fault x, .fault y => x = y
    | _, _ => False

/-- Every instruction completes in every state of a machine that wraps addresses and takes unaligned accesses as
arbitrary (logs 7 and 8, not the setting at reset), where every address is a device or is storage that holds a
value.  That accesses to devices complete is in the form of logs 11 and 12, that a PC write of an odd value completes is
the spec's decision D5 (log 14), and that ill-formed terms and halted states execute too is the model's (log 26). -/
def Obligations.EveryInstructionCompletes : Prop :=
  ∀ (i : Instr) (s : State), s.params.wrapPolicy = .wrap → s.params.unalignedPolicy = .arbitrary →
    (∀ a : Word, isIO s a = true ∨ (isPopulated s a = true ∧ memRead s.mem a.toNat ≠ none)) →
    ∃ t, exec i s = .next t

/-- No step is refused, and executing an instruction stops only for an unaligned, unwritten, unpopulated or wrapping
access or a wrapping PC: every other stop is a fetch's or a decoding's.  The `UnwrittenRegister` and `UnwrittenFlag` that
60_exceptions.md lists too are never raised, because the model takes the `RESET_REGS` alternative of the spec's
decision D2: every register and flag holds a value at reset (DESIGN CHOICE, logs 1 and 2). -/
def Obligations.StopsOfExec : Prop :=
  (∀ (s : State) (r : Refusal), step s ≠ .refused r) ∧
  ∀ (i : Instr) (s : State) (f : Fault), exec i s = .fault f →
    (f = .addressWrap ∧ s.params.wrapPolicy = .strict) ∨
    (f = .unalignedHalfword ∧ s.params.unalignedPolicy = .fault ∧ ∃ rd rb imm, i = .ldr rd rb imm ∨ i = .str rd rb imm) ∨
    (f = .unpopulatedAddress ∧ ∃ rd rb imm, i = .ldr rd rb imm ∨ i = .str rd rb imm ∨ i = .ldrb rd rb imm ∨
      i = .strb rd rb imm) ∨
    (f = .unwrittenMemory ∧ ∃ rd rb imm, i = .ldr rd rb imm ∨ i = .ldrb rd rb imm)

/-! ### Assembler syntax -/

/-- The Syntax lines and the instructions (30_encoding.md section 5; offsets in bytes are the model's choice, log 27).
SP, LP and PC name R13, R14 and R15.  A line stands for the instruction that its row of the table gives, and for none
outside the row's operand limits.  That instruction is well-formed, every well-formed instruction has a line, a branch
where its target is an address, and a taken branch goes to the target its line names, under either wrap policy. -/
def Obligations.AssemblerLines : Prop :=
  (regNumber .sp = 13 ∧ regNumber .lp = 14 ∧ regNumber .pc = 15 ∧ ∀ n : Reg, regNumber (.r n) = n) ∧
  (∀ (a : Word) (l : AsmLine) (i : Instr), assemble a l = some i ↔ lineStandsFor a l i) ∧
  (∀ (a : Word) (l : AsmLine) (i : Instr), assemble a l = some i → i.wellFormed = true) ∧
  (∀ (a : Word) (i : Instr), i.wellFormed = true →
    (∀ (c : Cond) (off : BitVec 8), branchOf i = some (c, off) →
      0 ≤ (a.toNat : Int) + 2 * off.toInt ∧ (a.toNat : Int) + 2 * off.toInt < 65536) →
    ∃ l : AsmLine, assemble a l = some i) ∧
  (∀ (c : Cond) (target : Word) (i : Instr) (s : State), assemble s.pc (.b c target) = some i →
    conditionTable c s.flags → exec i s = .next (s.withPc target))
end

