-- ==== Sys2Proof/Laws/State.lean ====
section
/-! SUPPORT. One lemma per field per update of State, so that no proof unfolds a record update; then the same for
the register, flag and byte updates built from them. -/

namespace Sys2Proof.Machine

@[simp] theorem withRegs_regs (s : State) (r : Vector Word 15) : (s.withRegs r).regs = r := rfl
@[simp] theorem withRegs_pc (s : State) (r : Vector Word 15) : (s.withRegs r).pc = s.pc := rfl
@[simp] theorem withRegs_flags (s : State) (r : Vector Word 15) : (s.withRegs r).flags = s.flags := rfl
@[simp] theorem withRegs_srUpper (s : State) (r : Vector Word 15) : (s.withRegs r).srUpper = s.srUpper := rfl
@[simp] theorem withRegs_mem (s : State) (r : Vector Word 15) : (s.withRegs r).mem = s.mem := rfl
@[simp] theorem withRegs_halted (s : State) (r : Vector Word 15) : (s.withRegs r).halted = s.halted := rfl
@[simp] theorem withRegs_stored (s : State) (r : Vector Word 15) : (s.withRegs r).stored = s.stored := rfl
@[simp] theorem withRegs_outputs (s : State) (r : Vector Word 15) : (s.withRegs r).outputs = s.outputs := rfl
@[simp] theorem withRegs_draws (s : State) (r : Vector Word 15) : (s.withRegs r).draws = s.draws := rfl
@[simp] theorem withRegs_params (s : State) (r : Vector Word 15) : (s.withRegs r).params = s.params := rfl

@[simp] theorem withPc_regs (s : State) (a : Word) : (s.withPc a).regs = s.regs := rfl
@[simp] theorem withPc_pc (s : State) (a : Word) : (s.withPc a).pc = a := rfl
@[simp] theorem withPc_flags (s : State) (a : Word) : (s.withPc a).flags = s.flags := rfl
@[simp] theorem withPc_srUpper (s : State) (a : Word) : (s.withPc a).srUpper = s.srUpper := rfl
@[simp] theorem withPc_mem (s : State) (a : Word) : (s.withPc a).mem = s.mem := rfl
@[simp] theorem withPc_halted (s : State) (a : Word) : (s.withPc a).halted = s.halted := rfl
@[simp] theorem withPc_stored (s : State) (a : Word) : (s.withPc a).stored = s.stored := rfl
@[simp] theorem withPc_outputs (s : State) (a : Word) : (s.withPc a).outputs = s.outputs := rfl
@[simp] theorem withPc_draws (s : State) (a : Word) : (s.withPc a).draws = s.draws := rfl
@[simp] theorem withPc_params (s : State) (a : Word) : (s.withPc a).params = s.params := rfl

@[simp] theorem withFlags_regs (s : State) (f : Flags) : (s.withFlags f).regs = s.regs := rfl
@[simp] theorem withFlags_pc (s : State) (f : Flags) : (s.withFlags f).pc = s.pc := rfl
@[simp] theorem withFlags_flags (s : State) (f : Flags) : (s.withFlags f).flags = f := rfl
@[simp] theorem withFlags_srUpper (s : State) (f : Flags) : (s.withFlags f).srUpper = s.srUpper := rfl
@[simp] theorem withFlags_mem (s : State) (f : Flags) : (s.withFlags f).mem = s.mem := rfl
@[simp] theorem withFlags_halted (s : State) (f : Flags) : (s.withFlags f).halted = s.halted := rfl
@[simp] theorem withFlags_stored (s : State) (f : Flags) : (s.withFlags f).stored = s.stored := rfl
@[simp] theorem withFlags_outputs (s : State) (f : Flags) : (s.withFlags f).outputs = s.outputs := rfl
@[simp] theorem withFlags_draws (s : State) (f : Flags) : (s.withFlags f).draws = s.draws := rfl
@[simp] theorem withFlags_params (s : State) (f : Flags) : (s.withFlags f).params = s.params := rfl

@[simp] theorem withMem_regs (s : State) (m : Memory) : (s.withMem m).regs = s.regs := rfl
@[simp] theorem withMem_pc (s : State) (m : Memory) : (s.withMem m).pc = s.pc := rfl
@[simp] theorem withMem_flags (s : State) (m : Memory) : (s.withMem m).flags = s.flags := rfl
@[simp] theorem withMem_srUpper (s : State) (m : Memory) : (s.withMem m).srUpper = s.srUpper := rfl
@[simp] theorem withMem_mem (s : State) (m : Memory) : (s.withMem m).mem = m := rfl
@[simp] theorem withMem_halted (s : State) (m : Memory) : (s.withMem m).halted = s.halted := rfl
@[simp] theorem withMem_stored (s : State) (m : Memory) : (s.withMem m).stored = s.stored := rfl
@[simp] theorem withMem_outputs (s : State) (m : Memory) : (s.withMem m).outputs = s.outputs := rfl
@[simp] theorem withMem_draws (s : State) (m : Memory) : (s.withMem m).draws = s.draws := rfl
@[simp] theorem withMem_params (s : State) (m : Memory) : (s.withMem m).params = s.params := rfl

@[simp] theorem withStored_regs (s : State) (l : List Nat) : (s.withStored l).regs = s.regs := rfl
@[simp] theorem withStored_pc (s : State) (l : List Nat) : (s.withStored l).pc = s.pc := rfl
@[simp] theorem withStored_flags (s : State) (l : List Nat) : (s.withStored l).flags = s.flags := rfl
@[simp] theorem withStored_srUpper (s : State) (l : List Nat) : (s.withStored l).srUpper = s.srUpper := rfl
@[simp] theorem withStored_mem (s : State) (l : List Nat) : (s.withStored l).mem = s.mem := rfl
@[simp] theorem withStored_halted (s : State) (l : List Nat) : (s.withStored l).halted = s.halted := rfl
@[simp] theorem withStored_stored (s : State) (l : List Nat) : (s.withStored l).stored = l := rfl
@[simp] theorem withStored_outputs (s : State) (l : List Nat) : (s.withStored l).outputs = s.outputs := rfl
@[simp] theorem withStored_draws (s : State) (l : List Nat) : (s.withStored l).draws = s.draws := rfl
@[simp] theorem withStored_params (s : State) (l : List Nat) : (s.withStored l).params = s.params := rfl

@[simp] theorem withOutputs_regs (s : State) (l : List OutputEvent) : (s.withOutputs l).regs = s.regs := rfl
@[simp] theorem withOutputs_pc (s : State) (l : List OutputEvent) : (s.withOutputs l).pc = s.pc := rfl
@[simp] theorem withOutputs_flags (s : State) (l : List OutputEvent) : (s.withOutputs l).flags = s.flags := rfl
@[simp] theorem withOutputs_srUpper (s : State) (l : List OutputEvent) : (s.withOutputs l).srUpper = s.srUpper := rfl
@[simp] theorem withOutputs_mem (s : State) (l : List OutputEvent) : (s.withOutputs l).mem = s.mem := rfl
@[simp] theorem withOutputs_halted (s : State) (l : List OutputEvent) : (s.withOutputs l).halted = s.halted := rfl
@[simp] theorem withOutputs_stored (s : State) (l : List OutputEvent) : (s.withOutputs l).stored = s.stored := rfl
@[simp] theorem withOutputs_outputs (s : State) (l : List OutputEvent) : (s.withOutputs l).outputs = l := rfl
@[simp] theorem withOutputs_draws (s : State) (l : List OutputEvent) : (s.withOutputs l).draws = s.draws := rfl
@[simp] theorem withOutputs_params (s : State) (l : List OutputEvent) : (s.withOutputs l).params = s.params := rfl

@[simp] theorem withHalted_regs (s : State) (b : Bool) : (s.withHalted b).regs = s.regs := rfl
@[simp] theorem withHalted_pc (s : State) (b : Bool) : (s.withHalted b).pc = s.pc := rfl
@[simp] theorem withHalted_flags (s : State) (b : Bool) : (s.withHalted b).flags = s.flags := rfl
@[simp] theorem withHalted_srUpper (s : State) (b : Bool) : (s.withHalted b).srUpper = s.srUpper := rfl
@[simp] theorem withHalted_mem (s : State) (b : Bool) : (s.withHalted b).mem = s.mem := rfl
@[simp] theorem withHalted_halted (s : State) (b : Bool) : (s.withHalted b).halted = b := rfl
@[simp] theorem withHalted_stored (s : State) (b : Bool) : (s.withHalted b).stored = s.stored := rfl
@[simp] theorem withHalted_outputs (s : State) (b : Bool) : (s.withHalted b).outputs = s.outputs := rfl
@[simp] theorem withHalted_draws (s : State) (b : Bool) : (s.withHalted b).draws = s.draws := rfl
@[simp] theorem withHalted_params (s : State) (b : Bool) : (s.withHalted b).params = s.params := rfl

@[simp] theorem withDraws_regs (s : State) (n : Nat) : (s.withDraws n).regs = s.regs := rfl
@[simp] theorem withDraws_pc (s : State) (n : Nat) : (s.withDraws n).pc = s.pc := rfl
@[simp] theorem withDraws_flags (s : State) (n : Nat) : (s.withDraws n).flags = s.flags := rfl
@[simp] theorem withDraws_srUpper (s : State) (n : Nat) : (s.withDraws n).srUpper = s.srUpper := rfl
@[simp] theorem withDraws_mem (s : State) (n : Nat) : (s.withDraws n).mem = s.mem := rfl
@[simp] theorem withDraws_halted (s : State) (n : Nat) : (s.withDraws n).halted = s.halted := rfl
@[simp] theorem withDraws_stored (s : State) (n : Nat) : (s.withDraws n).stored = s.stored := rfl
@[simp] theorem withDraws_outputs (s : State) (n : Nat) : (s.withDraws n).outputs = s.outputs := rfl
@[simp] theorem withDraws_draws (s : State) (n : Nat) : (s.withDraws n).draws = n := rfl
@[simp] theorem withDraws_params (s : State) (n : Nat) : (s.withDraws n).params = s.params := rfl

/-! ### Registers -/

@[simp] theorem writeReg_flags (s : State) (r : Reg) (v : Word) : (writeReg s r v).flags = s.flags := by
  unfold writeReg; split <;> rfl
@[simp] theorem writeReg_srUpper (s : State) (r : Reg) (v : Word) : (writeReg s r v).srUpper = s.srUpper := by
  unfold writeReg; split <;> rfl
@[simp] theorem writeReg_mem (s : State) (r : Reg) (v : Word) : (writeReg s r v).mem = s.mem := by
  unfold writeReg; split <;> rfl
@[simp] theorem writeReg_halted (s : State) (r : Reg) (v : Word) : (writeReg s r v).halted = s.halted := by
  unfold writeReg; split <;> rfl
@[simp] theorem writeReg_stored (s : State) (r : Reg) (v : Word) : (writeReg s r v).stored = s.stored := by
  unfold writeReg; split <;> rfl
@[simp] theorem writeReg_outputs (s : State) (r : Reg) (v : Word) : (writeReg s r v).outputs = s.outputs := by
  unfold writeReg; split <;> rfl
@[simp] theorem writeReg_draws (s : State) (r : Reg) (v : Word) : (writeReg s r v).draws = s.draws := by
  unfold writeReg; split <;> rfl
@[simp] theorem writeReg_params (s : State) (r : Reg) (v : Word) : (writeReg s r v).params = s.params := by
  unfold writeReg; split <;> rfl

theorem writeReg_regs_of_lt (s : State) (r : Reg) (v : Word) (h : r.val < 15) :
    (writeReg s r v).regs = s.regs.set r.val v := by
  simp [writeReg, h]

@[simp] theorem writeReg_pc_of_ne (s : State) (r : Reg) (v : Word) (h : r ≠ Reg.pc) :
    (writeReg s r v).pc = s.pc := by
  have h' : r.val < 15 := by have := r.isLt; have : r.val ≠ 15 := fun e => h (Fin.ext e); omega
  simp [writeReg, h']

/-- Writing R15 is writing the PC (10_state.md rule R27). -/
@[simp] theorem writeReg_pc (s : State) (v : Word) : writeReg s Reg.pc v = s.withPc v := rfl

theorem reg_lt_of_ne_pc {r : Reg} (h : r ≠ Reg.pc) : r.val < 15 := by
  have := r.isLt
  have : r.val ≠ 15 := fun e => h (Fin.ext e)
  omega

@[simp] theorem toReg_ne_pc (r : LowReg) : r.toReg ≠ Reg.pc := by
  intro h
  have h' := congrArg Fin.val h
  have := r.isLt
  simp at h'
  omega

@[simp] theorem toReg_val (r : LowReg) : r.toReg.val = r.val := rfl

theorem toReg_inj {r q : LowReg} : r.toReg = q.toReg ↔ r = q := by
  constructor
  · intro h; exact Fin.ext (by simpa using congrArg Fin.val h)
  · rintro rfl; rfl

/-- Reading R15 is reading the PC (10_state.md rule R26). -/
@[simp] theorem readReg_pc (s : State) : readReg s Reg.pc = s.pc := rfl

/-- A register reads as last written. -/
@[simp] theorem readReg_writeReg_self (s : State) (r : Reg) (v : Word) : readReg (writeReg s r v) r = v := by
  unfold readReg writeReg
  split <;> simp

/-- A write leaves every other register alone. -/
theorem readReg_writeReg_of_ne (s : State) {r q : Reg} (v : Word) (h : q ≠ r) :
    readReg (writeReg s r v) q = readReg s q := by
  have hne : r.val ≠ q.val := fun e => h (Fin.ext e.symm)
  have hr := r.isLt
  have hq := q.isLt
  unfold readReg writeReg
  by_cases h1 : q.val < 15 <;> by_cases h2 : r.val < 15 <;> simp [h1, h2]
  · simp [hne]
  · omega

/-- What a register holds depends on R0 to R14 and the PC alone. -/
theorem readReg_congr {s t : State} (hr : t.regs = s.regs) (hp : t.pc = s.pc) (r : Reg) :
    readReg t r = readReg s r := by
  simp [readReg, hr, hp]

theorem readReg_withPc_of_ne (s : State) (a : Word) {r : Reg} (h : r ≠ Reg.pc) :
    readReg (s.withPc a) r = readReg s r := by
  simp [readReg, reg_lt_of_ne_pc h]

@[simp] theorem readReg_withFlags (s : State) (f : Flags) (r : Reg) : readReg (s.withFlags f) r = readReg s r := rfl
@[simp] theorem readReg_withMem (s : State) (m : Memory) (r : Reg) : readReg (s.withMem m) r = readReg s r := rfl
@[simp] theorem readReg_withStored (s : State) (l : List Nat) (r : Reg) : readReg (s.withStored l) r = readReg s r := rfl
@[simp] theorem readReg_withOutputs (s : State) (l : List OutputEvent) (r : Reg) : readReg (s.withOutputs l) r = readReg s r := rfl
@[simp] theorem readReg_withHalted (s : State) (b : Bool) (r : Reg) : readReg (s.withHalted b) r = readReg s r := rfl
@[simp] theorem readReg_withDraws (s : State) (n : Nat) (r : Reg) : readReg (s.withDraws n) r = readReg s r := rfl

@[simp] theorem readLow_def (s : State) (r : LowReg) : readLow s r = readReg s r.toReg := rfl
@[simp] theorem writeLow_def (s : State) (r : LowReg) (v : Word) : writeLow s r v = writeReg s r.toReg v := rfl

/-! ### Flags -/

@[simp] theorem setNZ_regs (s : State) (r : Word) : (setNZ s r).regs = s.regs := rfl
@[simp] theorem setNZ_pc (s : State) (r : Word) : (setNZ s r).pc = s.pc := rfl
@[simp] theorem setNZ_srUpper (s : State) (r : Word) : (setNZ s r).srUpper = s.srUpper := rfl
@[simp] theorem setNZ_mem (s : State) (r : Word) : (setNZ s r).mem = s.mem := rfl
@[simp] theorem setNZ_halted (s : State) (r : Word) : (setNZ s r).halted = s.halted := rfl
@[simp] theorem setNZ_stored (s : State) (r : Word) : (setNZ s r).stored = s.stored := rfl
@[simp] theorem setNZ_outputs (s : State) (r : Word) : (setNZ s r).outputs = s.outputs := rfl
@[simp] theorem setNZ_draws (s : State) (r : Word) : (setNZ s r).draws = s.draws := rfl
@[simp] theorem setNZ_params (s : State) (r : Word) : (setNZ s r).params = s.params := rfl
@[simp] theorem readReg_setNZ (s : State) (r : Word) (q : Reg) : readReg (setNZ s r) q = readReg s q := rfl
@[simp] theorem setNZCV_regs (s : State) (x : Arith) : (setNZCV s x).regs = s.regs := rfl
@[simp] theorem setNZCV_pc (s : State) (x : Arith) : (setNZCV s x).pc = s.pc := rfl
@[simp] theorem setNZCV_srUpper (s : State) (x : Arith) : (setNZCV s x).srUpper = s.srUpper := rfl
@[simp] theorem setNZCV_mem (s : State) (x : Arith) : (setNZCV s x).mem = s.mem := rfl
@[simp] theorem setNZCV_halted (s : State) (x : Arith) : (setNZCV s x).halted = s.halted := rfl
@[simp] theorem setNZCV_stored (s : State) (x : Arith) : (setNZCV s x).stored = s.stored := rfl
@[simp] theorem setNZCV_outputs (s : State) (x : Arith) : (setNZCV s x).outputs = s.outputs := rfl
@[simp] theorem setNZCV_draws (s : State) (x : Arith) : (setNZCV s x).draws = s.draws := rfl
@[simp] theorem setNZCV_params (s : State) (x : Arith) : (setNZCV s x).params = s.params := rfl
@[simp] theorem readReg_setNZCV (s : State) (x : Arith) (q : Reg) : readReg (setNZCV s x) q = readReg s q := rfl
@[simp] theorem setC_regs (s : State) (c : Bool) : (setC s c).regs = s.regs := rfl
@[simp] theorem setC_pc (s : State) (c : Bool) : (setC s c).pc = s.pc := rfl
@[simp] theorem setC_srUpper (s : State) (c : Bool) : (setC s c).srUpper = s.srUpper := rfl
@[simp] theorem setC_mem (s : State) (c : Bool) : (setC s c).mem = s.mem := rfl
@[simp] theorem setC_halted (s : State) (c : Bool) : (setC s c).halted = s.halted := rfl
@[simp] theorem setC_stored (s : State) (c : Bool) : (setC s c).stored = s.stored := rfl
@[simp] theorem setC_outputs (s : State) (c : Bool) : (setC s c).outputs = s.outputs := rfl
@[simp] theorem setC_draws (s : State) (c : Bool) : (setC s c).draws = s.draws := rfl
@[simp] theorem setC_params (s : State) (c : Bool) : (setC s c).params = s.params := rfl
@[simp] theorem readReg_setC (s : State) (c : Bool) (q : Reg) : readReg (setC s c) q = readReg s q := rfl
@[simp] theorem setNZ_n (s : State) (r : Word) : (setNZ s r).flags.n = r.getLsbD 15 := rfl
@[simp] theorem setNZ_z (s : State) (r : Word) : (setNZ s r).flags.z = decide (r = 0#16) := rfl
@[simp] theorem setNZ_c (s : State) (r : Word) : (setNZ s r).flags.c = s.flags.c := rfl
@[simp] theorem setNZ_v (s : State) (r : Word) : (setNZ s r).flags.v = s.flags.v := rfl
@[simp] theorem setNZCV_n (s : State) (x : Arith) : (setNZCV s x).flags.n = x.r.getLsbD 15 := rfl
@[simp] theorem setNZCV_z (s : State) (x : Arith) : (setNZCV s x).flags.z = decide (x.r = 0#16) := rfl
@[simp] theorem setNZCV_c (s : State) (x : Arith) : (setNZCV s x).flags.c = x.c := rfl
@[simp] theorem setNZCV_v (s : State) (x : Arith) : (setNZCV s x).flags.v = x.v := rfl
@[simp] theorem setC_n (s : State) (c : Bool) : (setC s c).flags.n = s.flags.n := rfl
@[simp] theorem setC_z (s : State) (c : Bool) : (setC s c).flags.z = s.flags.z := rfl
@[simp] theorem setC_c (s : State) (c : Bool) : (setC s c).flags.c = c := rfl
@[simp] theorem setC_v (s : State) (c : Bool) : (setC s c).flags.v = s.flags.v := rfl

/-! ### One stored byte -/

@[simp] theorem putByte_regs (s : State) (a : Word) (b : Byte) : (putByte s a b).regs = s.regs := rfl
@[simp] theorem putByte_pc (s : State) (a : Word) (b : Byte) : (putByte s a b).pc = s.pc := rfl
@[simp] theorem putByte_flags (s : State) (a : Word) (b : Byte) : (putByte s a b).flags = s.flags := rfl
@[simp] theorem putByte_srUpper (s : State) (a : Word) (b : Byte) : (putByte s a b).srUpper = s.srUpper := rfl
@[simp] theorem putByte_mem (s : State) (a : Word) (b : Byte) : (putByte s a b).mem = memWrite s.mem a.toNat b := rfl
@[simp] theorem putByte_halted (s : State) (a : Word) (b : Byte) : (putByte s a b).halted = s.halted := rfl
@[simp] theorem putByte_stored (s : State) (a : Word) (b : Byte) : (putByte s a b).stored = addAddress s.stored a.toNat := rfl
@[simp] theorem putByte_outputs (s : State) (a : Word) (b : Byte) : (putByte s a b).outputs = s.outputs := rfl
@[simp] theorem putByte_draws (s : State) (a : Word) (b : Byte) : (putByte s a b).draws = s.draws := rfl
@[simp] theorem putByte_params (s : State) (a : Word) (b : Byte) : (putByte s a b).params = s.params := rfl
@[simp] theorem readReg_putByte (s : State) (a : Word) (b : Byte) (q : Reg) : readReg (putByte s a b) q = readReg s q := rfl

end Sys2Proof.Machine
end

