-- ==== Sys2Proof/Laws/Memory.lean ====
section
/-! SUPPORT. Memory and the stored-to marks: reading after writing, and that every operation keeps the canonical
form. -/

namespace Sys2Proof.Machine

/-- An address reads as last written. -/
@[simp] theorem memRead_memWrite_self (m : Memory) (a : Nat) (b : Byte) : memRead (memWrite m a b) a = some b := by
  induction m with
  | nil => simp [memWrite, memRead]
  | cons x m ih =>
    unfold memWrite
    split
    · simp [memRead]
    · split
      · simp [memRead]
      · have : x.1 ≠ a := fun e => by simp_all
        simp [memRead, this, ih]

/-- A write leaves every other address alone. -/
theorem memRead_memWrite_of_ne (m : Memory) {a c : Nat} (b : Byte) (h : c ≠ a) :
    memRead (memWrite m a b) c = memRead m c := by
  induction m with
  | nil => simp [memWrite, memRead, Ne.symm h]
  | cons x m ih =>
    unfold memWrite
    split
    · simp [memRead, Ne.symm h]
    · split
      · rename_i h1 h2
        have : x.1 ≠ c := fun e => h (by omega)
        simp [memRead, Ne.symm h, this]
      · simp [memRead, ih]

theorem memRead_memWrite (m : Memory) (a c : Nat) (b : Byte) :
    memRead (memWrite m a b) c = if c = a then some b else memRead m c := by
  split
  · next h => rw [h]; exact memRead_memWrite_self m a b
  · next h => exact memRead_memWrite_of_ne m b h

/-- The cells after a write are the cell written and cells that were there. -/
theorem mem_memWrite {m : Memory} {a : Nat} {b : Byte} {x : Host.Cell} (h : x ∈ memWrite m a b) :
    x = (a, b) ∨ x ∈ m := by
  induction m with
  | nil => simpa [memWrite] using h
  | cons y m ih =>
    unfold memWrite at h
    split at h
    · simpa using h
    · split at h
      · simp only [List.mem_cons] at h ⊢; tauto
      · simp only [List.mem_cons] at h ⊢
        rcases h with h | h
        · tauto
        · have := ih h; tauto

/-- A write inside the address space keeps the canonical form. -/
theorem memWrite_wf {m : Memory} (hm : Memory.wf m) {a : Nat} (ha : a < addressSpace) (b : Byte) :
    Memory.wf (memWrite m a b) := by
  refine ⟨?_, fun x hx => ?_⟩
  · have hp := hm.1
    clear hm
    induction m with
    | nil => simp [memWrite]
    | cons y m ih =>
      rw [List.pairwise_cons] at hp
      unfold memWrite
      split
      · next h =>
        rw [List.pairwise_cons]
        refine ⟨fun z hz => ?_, List.pairwise_cons.2 hp⟩
        rcases List.mem_cons.1 hz with rfl | hz
        · exact h
        · exact lt_trans h (hp.1 z hz)
      · split
        · next h =>
          exact List.pairwise_cons.2 ⟨fun z hz => by have := hp.1 z hz; simp only; omega, hp.2⟩
        · next h1 h2 =>
          refine List.pairwise_cons.2 ⟨fun z hz => ?_, ih hp.2⟩
          rcases mem_memWrite hz with rfl | hz
          · simp only; omega
          · exact hp.1 z hz
  · rcases mem_memWrite hx with rfl | hx
    · exact ha
    · exact hm.2 x hx

theorem mem_addAddress {l : List Nat} {a x : Nat} : x ∈ addAddress l a ↔ x = a ∨ x ∈ l := by
  induction l with
  | nil => simp [addAddress]
  | cons y l ih =>
    unfold addAddress
    split
    · simp
    · split
      · next h => subst h; simp
      · simp only [List.mem_cons, ih]; tauto

/-- Marking an address inside the address space keeps the marks in their form. -/
theorem addAddress_rising {l : List Nat} (hl : addressesRising l) {a : Nat} (ha : a < addressSpace) :
    addressesRising (addAddress l a) := by
  refine ⟨?_, fun x hx => ?_⟩
  · have hp := hl.1
    clear hl
    induction l with
    | nil => simp [addAddress]
    | cons y l ih =>
      rw [List.pairwise_cons] at hp
      unfold addAddress
      split
      · next h =>
        refine List.pairwise_cons.2 ⟨fun z hz => ?_, List.pairwise_cons.2 hp⟩
        rcases List.mem_cons.1 hz with rfl | hz
        · exact h
        · exact lt_trans h (hp.1 z hz)
      · split
        · exact List.pairwise_cons.2 hp
        · next h1 h2 =>
          refine List.pairwise_cons.2 ⟨fun z hz => ?_, ih hp.2⟩
          rcases mem_addAddress.1 hz with rfl | hz
          · omega
          · exact hp.1 z hz
  · rcases mem_addAddress.1 hx with rfl | hx
    · exact ha
    · exact hl.2 x hx

/-- Storing a byte keeps the invariant. -/
theorem putByte_inv {s : State} (h : s.Inv) (a : Word) (b : Byte) : (putByte s a b).Inv := by
  refine ⟨memWrite_wf h.1 a.isLt b, addAddress_rising h.2.1 a.isLt, fun x hx => ?_⟩
  simp only [putByte_stored, putByte_mem] at hx ⊢
  rw [memRead_memWrite]
  split
  · rfl
  · next hne => exact h.2.2 x ((mem_addAddress.1 hx).resolve_left hne)

/-- Placing an instruction from outside keeps memory's canonical form. -/
theorem loadHalfwordAtPc_memory_wf {s : State} (h : Memory.wf s.mem) (w : Word) :
    Memory.wf (loadHalfwordAtPc s w).mem :=
  memWrite_wf (memWrite_wf h (nextByte s.pc).isLt _) s.pc.isLt _

/-- The memory after reset has the canonical form. -/
theorem reset_memory_wf : Memory.wf State.reset.mem := by decide

end Sys2Proof.Machine
end

