-- ==== Sys2Proof/Laws/Ops.lean ====
section
/-! SUPPORT. For each shared operation, everything it can do: what it answers where the spec lets it go on, and what
its answer says about the state before. -/

namespace Sys2Proof.Machine

/-! ### The program counter -/

theorem advance_of_inRange {s : State} (h : nextInRange s) : advance s = .next (s.withPc (s.pc + 2#16)) := by
  unfold advance
  rw [if_neg]
  rintro ⟨h1, h2⟩
  rcases h with h | h
  · rw [h] at h1; cases h1
  · simp only [addressSpace] at h2; omega

theorem advance_of_not_inRange {s : State} (h : ¬ nextInRange s) : advance s = .fault .addressWrap := by
  unfold advance
  rw [if_pos]
  rw [not_or] at h
  refine ⟨?_, by simp only [addressSpace]; omega⟩
  cases hp : s.params.wrapPolicy
  · rfl
  · exact absurd hp h.1

/-- The implicit advance answers a next state in one way only. -/
theorem advance_next {s t : State} (h : advance s = .next t) : nextInRange s ∧ t = s.withPc (s.pc + 2#16) := by
  by_cases hr : nextInRange s
  · rw [advance_of_inRange hr] at h
    exact ⟨hr, by cases h; rfl⟩
  · rw [advance_of_not_inRange hr] at h
    cases h

theorem advance_fault {s : State} {f : Fault} (h : advance s = .fault f) : ¬ nextInRange s ∧ f = .addressWrap := by
  by_cases hr : nextInRange s
  · rw [advance_of_inRange hr] at h
    cases h
  · rw [advance_of_not_inRange hr] at h
    exact ⟨hr, by cases h; rfl⟩

theorem advance_not_refused {s : State} {r : Refusal} : advance s ≠ .refused r := by
  unfold advance
  split <;> simp

@[simp] theorem retire_pc (s : State) : retire Reg.pc s = .next s := rfl

theorem retire_of_ne {d : Reg} (h : d ≠ Reg.pc) (s : State) : retire d s = advance s := by
  simp [retire, h]

/-- The end of a Format 5 instruction: a written PC stands, otherwise the PC advances. -/
theorem retire_next {d : Reg} {s t : State} (h : retire d s = .next t) :
    (d = Reg.pc ∧ t = s) ∨ (d ≠ Reg.pc ∧ nextInRange s ∧ t = s.withPc (s.pc + 2#16)) := by
  by_cases hd : d = Reg.pc
  · subst hd
    rw [retire_pc] at h
    exact .inl ⟨rfl, by cases h; rfl⟩
  · rw [retire_of_ne hd] at h
    exact .inr ⟨hd, advance_next h⟩

/-- A branch offset as a number: twice the signed 8-bit field (42_branch.md rule R150). -/
theorem branchOffset_toInt (off : BitVec 8) : (branchOffset off).toInt = 2 * off.toInt := by
  revert off
  decide

theorem branchBy_of_inRange {s : State} {off : BitVec 8} (h : targetInRange s off) :
    branchBy s (branchOffset off) = .next (s.withPc (s.pc + branchOffset off)) := by
  unfold branchBy
  simp only [branchOffset_toInt, addressSpace]
  rw [if_neg]
  rintro ⟨h1, h2⟩
  rcases h with h | h
  · rw [h] at h1; cases h1
  · omega

theorem branchBy_of_not_inRange {s : State} {off : BitVec 8} (h : ¬ targetInRange s off) :
    branchBy s (branchOffset off) = .fault .addressWrap := by
  unfold branchBy
  simp only [branchOffset_toInt, addressSpace]
  rw [not_or] at h
  rw [if_pos]
  refine ⟨?_, by omega⟩
  cases hp : s.params.wrapPolicy
  · rfl
  · exact absurd hp h.1

/-- A taken branch answers a next state in one way only. -/
theorem branchBy_next {s t : State} {off : BitVec 8} (h : branchBy s (branchOffset off) = .next t) :
    targetInRange s off ∧ t = s.withPc (s.pc + branchOffset off) := by
  by_cases hr : targetInRange s off
  · rw [branchBy_of_inRange hr] at h
    exact ⟨hr, by cases h; rfl⟩
  · rw [branchBy_of_not_inRange hr] at h
    cases h

/-! ### The effective address -/

theorem effectiveAddress_of_inRange {s : State} {rb : LowReg} {n : Nat} (h : addressInRange s rb n) :
    effectiveAddress s rb n = .ok (BitVec.ofNat 16 ((readReg s rb.toReg).toNat + n)) := by
  unfold effectiveAddress
  rw [if_neg]
  · rfl
  · rintro ⟨h1, h2⟩
    rcases h with h | h
    · rw [h] at h1; cases h1
    · simp only [readLow_def, addressSpace] at h2; omega

theorem effectiveAddress_of_not_inRange {s : State} {rb : LowReg} {n : Nat} (h : ¬ addressInRange s rb n) :
    effectiveAddress s rb n = .error .addressWrap := by
  rw [not_or] at h
  unfold effectiveAddress
  rw [if_pos]
  refine ⟨?_, by simp only [readLow_def, addressSpace]; omega⟩
  cases hp : s.params.wrapPolicy
  · rfl
  · exact absurd hp h.1

theorem effectiveAddress_ok {s : State} {rb : LowReg} {n : Nat} {a : Word} (h : effectiveAddress s rb n = .ok a) :
    addressInRange s rb n ∧ a = BitVec.ofNat 16 ((readReg s rb.toReg).toNat + n) := by
  by_cases hr : addressInRange s rb n
  · rw [effectiveAddress_of_inRange hr] at h
    exact ⟨hr, by cases h; rfl⟩
  · rw [effectiveAddress_of_not_inRange hr] at h
    cases h

/-- An effective address as the sum of base and offset. -/
theorem ofNat_toNat_add (a : Word) (n : Nat) : BitVec.ofNat 16 (a.toNat + n) = a + BitVec.ofNat 16 n := by
  apply BitVec.eq_of_toNat_eq
  simp

theorem isWordAligned_iff (a : Word) : isWordAligned a = true ↔ a.toNat % 4 = 0 := by
  simp only [isWordAligned, beq_iff_eq, ← BitVec.toNat_inj, BitVec.extractLsb'_toNat]
  simp

/-! ### Loads -/

/-- A byte load answers a value in two ways: a free one from a device, or the byte memory holds. -/
theorem loadByte_ok {s t : State} {a : Word} {b : Byte} (h : loadByte s a = .ok (b, t)) :
    (isIO s a = true ∧ b = Config.freeByte s.draws ∧ t = s.withDraws (s.draws + 1)) ∨
    (isStorageByte s a ∧ memRead s.mem a.toNat = some b ∧ t = s) := by
  unfold loadByte at h
  split at h
  · next hio => cases h; exact .inl ⟨hio, rfl, rfl⟩
  · next hio =>
    split at h
    · next hp =>
      split at h
      · next hm => cases h; exact .inr ⟨⟨by simpa using hio, hp⟩, hm, rfl⟩
      · cases h
    · cases h

theorem loadByte_of_storage {s : State} {a : Word} {b : Byte} (h : isStorageByte s a)
    (hm : memRead s.mem a.toNat = some b) : loadByte s a = .ok (b, s) := by
  simp [loadByte, h.1, h.2, hm]

/-- A halfword load answers a value in two ways: a free one from a device, or the two bytes memory holds. -/
theorem loadHalf_ok {s t : State} {a v : Word} (h : loadHalf s a = .ok (v, t)) :
    (isIOHalf s a = true ∧ v = Config.freeHalf s.draws ∧ t = s.withDraws (s.draws + 1)) ∨
    (isStorageHalf s a ∧ t = s ∧ ∃ lo hi : Byte, memRead s.mem a.toNat = some lo ∧
      memRead s.mem (a + 1#16).toNat = some hi ∧ v = hi ++ lo) := by
  unfold loadHalf at h
  split at h
  · next hio => cases h; exact .inl ⟨hio, rfl, rfl⟩
  · next hio =>
    split at h
    · next hp =>
      split at h
      · next lo hi hlo hhi =>
        cases h
        simp only [isIOHalf, nextByte, Bool.or_eq_true, not_or, Bool.not_eq_true] at hio
        simp only [nextByte, Bool.and_eq_true] at hp
        exact .inr ⟨⟨hio.1, hio.2, hp.1, hp.2⟩, rfl, lo, hi, hlo, hhi, rfl⟩
      · cases h
    · cases h

theorem loadHalf_of_storage {s : State} {a : Word} {lo hi : Byte} (h : isStorageHalf s a)
    (hlo : memRead s.mem a.toNat = some lo) (hhi : memRead s.mem (a + 1#16).toNat = some hi) :
    loadHalf s a = .ok (hi ++ lo, s) := by
  obtain ⟨h1, h2, h3, h4⟩ := h
  simp only [loadHalf, isIOHalf, nextByte, h1, h2, h3, h4, hlo, hhi]
  rfl

theorem loadByte_of_io {s : State} {a : Word} (h : isIO s a = true) :
    loadByte s a = .ok (Config.freeByte s.draws, s.withDraws (s.draws + 1)) := by
  simp [loadByte, h]

theorem loadHalf_of_io {s : State} {a : Word} (h : isIO s a = true ∨ isIO s (a + 1#16) = true) :
    loadHalf s a = .ok (Config.freeHalf s.draws, s.withDraws (s.draws + 1)) := by
  rw [loadHalf, if_pos (by simpa [isIOHalf, nextByte] using h)]

theorem loadHalfAligned_of_aligned {s : State} {a : Word} (h : a.toNat % 4 = 0) :
    loadHalfAligned s a = loadHalf s a := by
  rw [loadHalfAligned, if_pos ((isWordAligned_iff a).2 h)]

/-- LDR's access changes at most the draw counter. -/
theorem loadHalfAligned_ok {s t : State} {a v : Word} (h : loadHalfAligned s a = .ok (v, t)) :
    (t = s ∨ t = s.withDraws (s.draws + 1)) := by
  unfold loadHalfAligned at h
  split at h
  · rcases loadHalf_ok h with ⟨-, -, rfl⟩ | ⟨-, rfl, -⟩ <;> simp
  · split at h
    · cases h
    · split at h
      · cases h; exact .inr rfl
      · cases h

/-- LDRB's access changes at most the draw counter. -/
theorem loadByteZeroExtended_ok {s t : State} {a v : Word} (h : loadByteZeroExtended s a = .ok (v, t)) :
    ∃ b : Byte, loadByte s a = .ok (b, t) ∧ v = b.setWidth 16 := by
  unfold loadByteZeroExtended at h
  split at h
  · cases h
  · next b u hb => cases h; exact ⟨b, hb, rfl⟩

/-- A load ends by writing its destination and advancing. -/
theorem finishLoad_next {rd : LowReg} {x : Except Fault (Word × State)} {t : State}
    (h : finishLoad rd x = .next t) :
    ∃ v u, x = .ok (v, u) ∧ nextInRange u ∧ t = (writeReg u rd.toReg v).withPc (u.pc + 2#16) := by
  cases x with
  | error f => cases h
  | ok p =>
    obtain ⟨v, u⟩ := p
    obtain ⟨h1, h2⟩ := advance_next h
    simp only [writeLow_def, nextInRange, writeReg_params, writeReg_pc_of_ne _ _ _ (toReg_ne_pc rd)] at h1 h2
    exact ⟨v, u, rfl, h1, h2⟩

/-! ### Stores -/

/-- A byte store goes on in two ways: an output event, or the byte in memory. -/
theorem storeByte_ok {s t : State} {a : Word} {v : Byte} (h : storeByte s a v = .ok t) :
    (isIO s a = true ∧ t = s.withOutputs (s.outputs ++ [.byte a v])) ∨
    (isStorageByte s a ∧ t = putByte s a v) := by
  unfold storeByte at h
  split at h
  · next hio => cases h; exact .inl ⟨hio, rfl⟩
  · next hio =>
    split at h
    · next hp => cases h; exact .inr ⟨⟨by simpa using hio, hp⟩, rfl⟩
    · cases h

/-- A halfword store goes on in two ways: an output event, or both bytes in memory. -/
theorem storeHalf_ok {s t : State} {a v : Word} (h : storeHalf s a v = .ok t) :
    (isIOHalf s a = true ∧ t = s.withOutputs (s.outputs ++ [.halfword a v])) ∨
    (isStorageHalf s a ∧
      t = putByte (putByte s (a + 1#16) (v.extractLsb' 8 8)) a (v.extractLsb' 0 8)) := by
  unfold storeHalf at h
  split at h
  · next hio => cases h; exact .inl ⟨hio, rfl⟩
  · next hio =>
    split at h
    · next hp =>
      cases h
      simp only [isIOHalf, nextByte, Bool.or_eq_true, not_or, Bool.not_eq_true] at hio
      simp only [nextByte, Bool.and_eq_true] at hp
      exact .inr ⟨⟨hio.1, hio.2, hp.1, hp.2⟩, rfl⟩
    · cases h

theorem storeByte_of_storage {s : State} {a : Word} (v : Byte) (h : isStorageByte s a) :
    storeByte s a v = .ok (putByte s a v) := by
  simp [storeByte, h.1, h.2]

theorem storeHalf_of_storage {s : State} {a : Word} (v : Word) (h : isStorageHalf s a) :
    storeHalf s a v = .ok (putByte (putByte s (a + 1#16) (v.extractLsb' 8 8)) a (v.extractLsb' 0 8)) := by
  obtain ⟨h1, h2, h3, h4⟩ := h
  simp only [storeHalf, isIOHalf, nextByte, h1, h2, h3, h4]
  rfl

theorem storeByte_of_io {s : State} {a : Word} (v : Byte) (h : isIO s a = true) :
    storeByte s a v = .ok (s.withOutputs (s.outputs ++ [.byte a v])) := by
  simp [storeByte, h]

theorem storeHalf_of_io {s : State} {a : Word} (v : Word) (h : isIO s a = true ∨ isIO s (a + 1#16) = true) :
    storeHalf s a v = .ok (s.withOutputs (s.outputs ++ [.halfword a v])) := by
  rw [storeHalf, if_pos (by simpa [isIOHalf, nextByte] using h)]

theorem storeHalfAligned_of_aligned {s : State} {a : Word} (v : Word) (h : a.toNat % 4 = 0) :
    storeHalfAligned s a v = storeHalf s a v := by
  rw [storeHalfAligned, if_pos ((isWordAligned_iff a).2 h)]

/-- STR's access is a halfword store of the value given, or of a free one. -/
theorem storeHalfAligned_ok {s t : State} {a v : Word} (h : storeHalfAligned s a v = .ok t) :
    (isWordAligned a = true ∧ storeHalf s a v = .ok t) ∨
    (isWordAligned a = false ∧ s.params.unalignedPolicy = .arbitrary ∧
      storeHalf (s.withDraws (s.draws + 1)) a (Config.freeHalf s.draws) = .ok t) := by
  unfold storeHalfAligned at h
  split at h
  · next ha => exact .inl ⟨ha, h⟩
  · next ha =>
    split at h
    · cases h
    · next hp => exact .inr ⟨by simpa using ha, hp, h⟩

theorem finishStore_next {x : Except Fault State} {t : State} (h : finishStore x = .next t) :
    ∃ u, x = .ok u ∧ nextInRange u ∧ t = u.withPc (u.pc + 2#16) := by
  cases x with
  | error f => cases h
  | ok u => exact ⟨u, rfl, advance_next h⟩

/-! ### Fetch and step -/

/-- A fetch answers a halfword in one way only: the two bytes at an even PC. -/
theorem fetch_ok {s : State} {w : Word} (h : fetch s = .ok w) :
    s.pc.getLsbD 0 = false ∧ isStorageHalf s s.pc ∧
    (s.params.fetchSeesStores = true ∨ isModifiedCode s s.pc = false) ∧
    ∃ lo hi : Byte, memRead s.mem s.pc.toNat = some lo ∧ memRead s.mem (s.pc + 1#16).toNat = some hi ∧
      w = hi ++ lo := by
  unfold fetch at h
  split at h
  · cases h
  · next ho =>
    split at h
    · cases h
    · next hio =>
      split at h
      · next hp =>
        split at h
        · next lo hi hlo hhi =>
          split at h
          · cases h
          · next hm =>
            cases h
            simp only [isIOHalf, nextByte, Bool.or_eq_true, not_or, Bool.not_eq_true] at hio
            simp only [nextByte, Bool.and_eq_true] at hp
            refine ⟨by simpa using ho, ⟨hio.1, hio.2, hp.1, hp.2⟩, ?_, lo, hi, hlo, hhi, rfl⟩
            cases hf : s.params.fetchSeesStores
            · right; simpa [hf] using hm
            · left; rfl
        · cases h
      · cases h

/-- A step answers a next state in two ways: the machine is halted and nothing changes, or the instruction at the PC
was executed. -/
theorem step_next {s t : State} (h : step s = .next t) :
    (s.halted = true ∧ t = s) ∨
    (s.halted = false ∧ ∃ w i, fetch s = .ok w ∧ decodeHalfword w = .ok i ∧ exec i s = .next t) := by
  unfold step at h
  split at h
  · next hh => cases h; exact .inl ⟨hh, rfl⟩
  · next hh =>
    split at h
    · cases h
    · next w hw =>
      split at h
      · cases h
      · next i hi => exact .inr ⟨by simpa using hh, w, i, hw, hi, h⟩

/-! ### Congruence: what an operation's answer rests on -/

theorem effectiveAddress_congr {s t : State} {rb : LowReg} (n : Nat) (hp : t.params = s.params)
    (hr : readReg t rb.toReg = readReg s rb.toReg) : effectiveAddress t rb n = effectiveAddress s rb n := by
  unfold effectiveAddress
  rw [hp, readLow_def, readLow_def, hr]

theorem isIO_congr {s t : State} (a : Word) (hp : t.params = s.params) : isIO t a = isIO s a := by
  simp only [isIO, hp]

theorem isPopulated_congr {s t : State} (a : Word) (hp : t.params = s.params) :
    isPopulated t a = isPopulated s a := by
  simp only [isPopulated, hp]

/-! ### Fetch where it stops and where it goes on -/

/-- Bit 0 of an address says whether it is odd. -/
theorem bit_zero_eq (a : Word) : a.getLsbD 0 = decide (a.toNat % 2 = 1) := by
  simp [BitVec.getLsbD, Nat.testBit_zero]

theorem next_toNat_of_even {a : Word} (h : a.toNat % 2 = 0) : (a + 1#16).toNat = a.toNat + 1 := by
  have := a.isLt
  rw [BitVec.toNat_add, BitVec.toNat_ofNat]
  omega

theorem fetch_of_odd {s : State} (h : s.pc.toNat % 2 = 1) : fetch s = .error .oddPC := by
  unfold fetch
  rw [if_pos (by rw [bit_zero_eq, h]; rfl)]

theorem bit_zero_of_even {a : Word} (h : a.toNat % 2 = 0) : a.getLsbD 0 = false := by
  rw [bit_zero_eq, h]
  rfl

/-- A fetch at an even PC from storage whose two bytes have a value: the halfword, unless the code was modified. -/
theorem fetch_of_storage {s : State} {lo hi : Byte} (he : s.pc.toNat % 2 = 0) (hs : isStorageHalf s s.pc)
    (hlo : memRead s.mem s.pc.toNat = some lo) (hhi : memRead s.mem (s.pc.toNat + 1) = some hi) :
    fetch s = if !s.params.fetchSeesStores && isModifiedCode s s.pc then .error .fetchOfModifiedCode
      else .ok (hi ++ lo) := by
  obtain ⟨h1, h2, h3, h4⟩ := hs
  rw [← next_toNat_of_even he] at hhi
  simp only [fetch, bit_zero_of_even he, isIOHalf, nextByte, h1, h2, h3, h4, hlo, hhi]
  rfl

/-- A step at code that a store has marked, under `FETCH_SEES_STORES` false. -/
theorem step_of_modified {s : State} (hh : s.halted = false) (hf : s.params.fetchSeesStores = false)
    (he : s.pc.toNat % 2 = 0) (hs : isStorageHalf s s.pc) (hlo : memRead s.mem s.pc.toNat ≠ none)
    (hhi : memRead s.mem (s.pc.toNat + 1) ≠ none) (hm : s.pc.toNat ∈ s.stored ∨ (s.pc + 1#16).toNat ∈ s.stored) :
    step s = .fault .fetchOfModifiedCode := by
  obtain ⟨lo, hlo⟩ := Option.ne_none_iff_exists'.1 hlo
  obtain ⟨hi, hhi⟩ := Option.ne_none_iff_exists'.1 hhi
  have hc : isModifiedCode s s.pc = true := by simpa [isModifiedCode, nextByte] using hm
  simp only [step, hh, fetch_of_storage he hs hlo hhi, hf, hc]
  rfl

theorem step_of_fetch {s : State} (hh : s.halted = false) {w : Word} (hw : fetch s = .ok w) {i : Instr}
    (hi : decodeHalfword w = .ok i) : step s = exec i s := by
  simp [step, hh, hw, hi]

end Sys2Proof.Machine
end

