-- ==== Sys2Proof/Laws/Flags.lean ====
section
/-! SUPPORT. What each flag computation answers, in the terms of the statements. -/

namespace Sys2Proof.Machine

/-- The evaluated condition is the condition table. -/
theorem conditionHolds_iff (c : Cond) (f : Flags) : conditionHolds c f = true ↔ conditionTable c f := by
  cases c <;> simp [conditionHolds, conditionTable]

theorem signedOverflow_iff (x : Int) : signedOverflow x = true ↔ x < -32768 ∨ 32767 < x := by
  simp [signedOverflow]

theorem addFlags_r (a b : Word) : (addFlags a b).r = a + b := by
  apply BitVec.eq_of_toNat_eq
  simp [addFlags]

theorem subFlags_r (a b : Word) : (subFlags a b).r = a - b := by
  apply BitVec.eq_of_toNat_eq
  have := a.isLt
  have := b.isLt
  simp only [subFlags, BitVec.toNat_ofInt, BitVec.toNat_sub]
  omega

theorem addFlags_c (a b : Word) : (addFlags a b).c = decide (65536 ≤ a.toNat + b.toNat) := rfl

theorem addFlags_v (a b : Word) : (addFlags a b).v = signedOverflow (a.toInt + b.toInt) := rfl

theorem subFlags_c (a b : Word) : (subFlags a b).c = decide (b.toNat ≤ a.toNat) := rfl

theorem subFlags_v (a b : Word) : (subFlags a b).v = signedOverflow (a.toInt - b.toInt) := rfl

theorem shiftAmount_eq (v : Word) : shiftAmount v = v.toNat % 256 := by
  simp [shiftAmount]

/-- For amounts 1 to 15, ASR's result is the sign-filling shift. -/
theorem asrResult_eq_sshiftRight (a : Word) {n : Nat} (h : 0 < n) (h' : n < 16) :
    asrResult a n = a.sshiftRight n := by
  simp only [asrResult, if_neg (Nat.pos_iff_ne_zero.1 h), if_pos h']
  apply BitVec.eq_of_toInt_eq
  rw [BitVec.toInt_sshiftRight, BitVec.toInt_ofInt, Int.shiftRight_eq_div_pow]
  have hlt : a.toInt < 32768 := by simpa using a.toInt_lt
  have hge : -32768 ≤ a.toInt := by simpa using a.le_toInt
  have hp : (0 : Int) < 2 ^ n := by positivity
  have hp' : (1 : Int) ≤ 2 ^ n := hp
  apply Int.bmod_eq_of_le
  · have : -32768 ≤ a.toInt / 2 ^ n := by
      rw [Int.le_ediv_iff_mul_le hp]
      nlinarith
    simpa using this
  · have : a.toInt / 2 ^ n < 32768 := by
      rw [Int.ediv_lt_iff_lt_mul hp]
      nlinarith
    simpa using this

end Sys2Proof.Machine
end

