-- ==== Sys2Proof/Laws/Assembly.lean ====
section
/-! SUPPORT. What each operand form of an assembler line answers: exactly the operands within its limits. -/

namespace Sys2Proof.Machine

theorem lowOperand_eq_some {x : RegName} {d : LowReg} : lowOperand x = some d ↔ regNumber x = d.toReg := by
  unfold lowOperand
  split
  · simp [Fin.ext_iff]
  · next h =>
    have := d.isLt
    simp only [reduceCtorEq, Fin.ext_iff, false_iff]
    omega

theorem lowPair_eq_some {f : LowReg → LowReg → Instr} {x y : RegName} {i : Instr} :
    lowPair f x y = some i ↔ ∃ d s : LowReg, regNumber x = d.toReg ∧ regNumber y = s.toReg ∧ i = f d s := by
  simp only [← lowOperand_eq_some]
  unfold lowPair
  constructor
  · intro h
    split at h
    · next a b ha hb => cases h; exact ⟨a, b, ha, hb, rfl⟩
    · cases h
  · rintro ⟨d, s, hd, hs, rfl⟩
    simp [hd, hs]

theorem lowWithByte_eq_some {f : LowReg → BitVec 8 → Instr} {x : RegName} {n : Nat} {i : Instr} :
    lowWithByte f x n = some i ↔
      ∃ (d : LowReg) (g : BitVec 8), regNumber x = d.toReg ∧ n = g.toNat ∧ i = f d g := by
  simp only [← lowOperand_eq_some]
  unfold lowWithByte
  constructor
  · intro h
    split at h
    · next a ha =>
      split at h
      · next hn => cases h; exact ⟨a, _, ha, by rw [BitVec.toNat_ofNat, Nat.mod_eq_of_lt hn], rfl⟩
      · cases h
    · cases h
  · rintro ⟨d, g, hd, rfl, rfl⟩
    simp [hd, g.isLt]

theorem memoryOperand_eq_some {f : LowReg → LowReg → BitVec 5 → Instr} {k : Nat} (hk : 0 < k) {x y : RegName}
    {n : Nat} {i : Instr} :
    memoryOperand f k x y n = some i ↔ ∃ (d b : LowReg) (g : BitVec 5),
      regNumber x = d.toReg ∧ regNumber y = b.toReg ∧ n = k * g.toNat ∧ i = f d b g := by
  simp only [← lowOperand_eq_some]
  unfold memoryOperand
  constructor
  · intro h
    split at h
    · next a b ha hb =>
      split at h
      · next hn =>
        cases h
        refine ⟨a, b, _, ha, hb, ?_, rfl⟩
        rw [BitVec.toNat_ofNat, Nat.mod_eq_of_lt hn.2]
        exact (Nat.mul_div_cancel' (Nat.dvd_of_mod_eq_zero hn.1)).symm
      · cases h
    · cases h
  · rintro ⟨d, b, g, hd, hb, rfl, rfl⟩
    have := g.isLt
    simp only [hd, hb, Nat.mul_mod_right, Nat.mul_div_cancel_left _ hk]
    rw [if_pos ⟨trivial, by omega⟩]
    simp

/-- The branch that a condition mnemonic names has that condition. -/
theorem branchOf_branchInstr (c : Cond) (off : BitVec 8) : branchOf (branchInstr c off) = some (c, off) := by
  cases c <;> rfl

end Sys2Proof.Machine
end

