-- ==== Sys2Proof/Laws/Decode.lean ====
section
/-! SUPPORT. Fields and formats as arithmetic on numbers: what a field of a halfword is, and which number each
format's encoding is. -/

namespace Sys2Proof

/-- A concatenation as a number. -/
theorem toNat_append_eq {m n : Nat} (x : BitVec m) (y : BitVec n) :
    (x ++ y).toNat = x.toNat * 2 ^ n + y.toNat := by
  rw [BitVec.toNat_append, ← Nat.shiftLeft_eq, Nat.shiftLeft_add_eq_or_of_lt y.isLt]

/-- A field as a number. -/
theorem bitsOf_eq (w : Word) (lo len : Nat) : bitsOf w lo len = w.toNat / 2 ^ lo % 2 ^ len := by
  simp [bitsOf, Nat.shiftRight_eq_div_pow]

theorem lowField_val (w : Word) (lo : Nat) : (lowField w lo).val = w.toNat / 2 ^ lo % 8 := by
  simp [lowField, Nat.shiftRight_eq_div_pow]

theorem regField_val (w : Word) (h lo : Nat) :
    (regField w h lo).val = w.toNat / 2 ^ h % 2 * 8 + w.toNat / 2 ^ lo % 8 := by
  have e := toNat_append_eq (w.extractLsb' h 1) (w.extractLsb' lo 3)
  simp only [BitVec.extractLsb'_toNat, Nat.shiftRight_eq_div_pow] at e
  exact e

theorem field8_toNat (w : Word) : (field8 w).toNat = w.toNat % 256 := by
  simp [field8]

theorem field5_toNat (w : Word) : (field5 w).toNat = w.toNat / 64 % 32 := by
  simp [field5, Nat.shiftRight_eq_div_pow]

theorem lowBits_toNat (r : LowReg) : (lowBits r).toNat = r.val := by
  have := r.isLt
  simp [lowBits]

theorem hBit_toNat (r : Reg) : (hBit r).toNat = r.val / 8 := by
  have := r.isLt
  simp only [hBit, BitVec.toNat_ofNat]
  omega

theorem restBits_toNat (r : Reg) : (restBits r).toNat = r.val % 8 := by
  simp only [restBits, BitVec.toNat_ofNat]
  omega

theorem encodeFormat3_toNat (op : BitVec 2) (rd : LowReg) (imm : BitVec 8) :
    (encodeFormat3 op rd imm).toNat = 0x2000 + op.toNat * 2048 + rd.val * 256 + imm.toNat := by
  simp only [encodeFormat3, toNat_append_eq, lowBits_toNat, BitVec.toNat_ofNat]
  omega

theorem encodeFormat4_toNat (op : BitVec 4) (rd rs : LowReg) :
    (encodeFormat4 op rd rs).toNat = 0x4000 + op.toNat * 64 + rs.val * 8 + rd.val := by
  simp only [encodeFormat4, toNat_append_eq, lowBits_toNat, BitVec.toNat_ofNat]
  omega

theorem encodeFormat5_toNat (op : BitVec 2) (rd rs : Reg) :
    (encodeFormat5 op rd rs).toNat =
      0x4400 + op.toNat * 256 + rd.val / 8 * 128 + rs.val / 8 * 64 + rs.val % 8 * 8 + rd.val % 8 := by
  simp only [encodeFormat5, toNat_append_eq, hBit_toNat, restBits_toNat, BitVec.toNat_ofNat]
  omega

theorem encodeFormat9_toNat (b l : BitVec 1) (rd rb : LowReg) (imm : BitVec 5) :
    (encodeFormat9 b l rd rb imm).toNat =
      0x6000 + b.toNat * 4096 + l.toNat * 2048 + imm.toNat * 64 + rb.val * 8 + rd.val := by
  simp only [encodeFormat9, toNat_append_eq, lowBits_toNat, BitVec.toNat_ofNat]
  omega

theorem encodeFormat12_toNat (rd : LowReg) (imm : BitVec 8) :
    (encodeFormat12 rd imm).toNat = 0xA000 + rd.val * 256 + imm.toNat := by
  simp only [encodeFormat12, toNat_append_eq, lowBits_toNat, BitVec.toNat_ofNat]
  omega

theorem encodeFormat16_toNat (cond : BitVec 4) (off : BitVec 8) :
    (encodeFormat16 cond off).toNat = 0xD000 + cond.toNat * 256 + off.toNat := by
  simp only [encodeFormat16, toNat_append_eq, BitVec.toNat_ofNat]
  omega

/-- Laying a halfword out as two bytes and joining them gives it back. -/
theorem halfwordOf_bytes (w : Word) : halfwordOf (w.extractLsb' 0 8) (w.extractLsb' 8 8) = w := by
  apply BitVec.eq_of_toNat_eq
  have := w.isLt
  simp only [halfwordOf, toNat_append_eq, BitVec.extractLsb'_toNat, Nat.shiftRight_eq_div_pow]
  omega

/-- A mask of all bits from `k` up selects the quotient by `2 ^ k`. -/
theorem toNat_div_of_mask {w : Word} {k v : Nat} (hk : k ≤ 16) (hv : v < 2 ^ (16 - k))
    (h : w &&& (BitVec.allOnes 16 <<< k) = BitVec.ofNat 16 (v * 2 ^ k)) : w.toNat / 2 ^ k = v := by
  have e : w &&& (BitVec.allOnes 16 <<< k) = (w >>> k) <<< k := by
    apply BitVec.eq_of_getLsbD_eq
    intro i hi
    simp only [BitVec.getLsbD_and, BitVec.getLsbD_shiftLeft, BitVec.getLsbD_allOnes, BitVec.getLsbD_ushiftRight]
    by_cases h : i < k
    · simp [h]
    · simp [h, hi, show k + (i - k) = i by omega, show i - k < 16 by omega]
  rw [e] at h
  have h0 := congrArg BitVec.toNat h
  simp only [BitVec.toNat_shiftLeft, BitVec.toNat_ushiftRight, Nat.shiftRight_eq_div_pow, Nat.shiftLeft_eq,
    BitVec.toNat_ofNat] at h0
  have hp : 2 ^ 16 = 2 ^ (16 - k) * 2 ^ k := by
    rw [← pow_add]
    congr 1
    omega
  have h1 : w.toNat / 2 ^ k * 2 ^ k < 2 ^ 16 := lt_of_le_of_lt (Nat.div_mul_le_self _ _) w.isLt
  have h2 : v * 2 ^ k < 2 ^ 16 := hp ▸ Nat.mul_lt_mul_of_pos_right hv (by positivity)
  rw [Nat.mod_eq_of_lt h1, Nat.mod_eq_of_lt h2] at h0
  exact Nat.eq_of_mul_eq_mul_right (by positivity) h0

end Sys2Proof
end

