-- ==== Sys2Proof/Laws/Exec.lean ====
section
/-! SUPPORT. What executing an instruction can do, said once over all instructions: the shapes of a next state. -/

namespace Sys2Proof.Machine

/-- Every branch is the one shared operation. -/
theorem exec_of_branch {i : Instr} {c : Cond} {off : BitVec 8} (h : branchOf i = some (c, off)) (s : State) :
    exec i s = branch c off s := by
  cases i <;> simp only [branchOf, Option.some.injEq, Prod.mk.injEq, reduceCtorEq] at h <;>
    obtain ⟨rfl, rfl⟩ := h <;> rfl

/-- The shapes of the next state that `exec` can answer. -/
inductive Shape (i : Instr) (s t : State) : Prop
  /-- HALT. -/
  | halted (h : i = .halt) (e : t = s.withHalted true)
  /-- Flags only. -/
  | compared (f : Flags) (e : t = (s.withFlags f).withPc (s.pc + 2#16))
      (hd : destination i = none) (hs : isStore i = false) (hb : branchOf i = none) (hi : i ≠ .halt)
  /-- One register other than the PC, and flags. -/
  | written (d : Reg) (v : Word) (f : Flags) (hne : d ≠ Reg.pc)
      (e : t = ((writeReg s d v).withFlags f).withPc (s.pc + 2#16))
      (hd : destination i = some d) (hs : isStore i = false) (hb : branchOf i = none) (hi : i ≠ .halt)
  /-- The PC as a destination, and flags. -/
  | jumped (v : Word) (f : Flags) (e : t = (s.withPc v).withFlags f)
      (hd : destination i = some Reg.pc) (hs : isStore i = false) (hb : branchOf i = none) (hi : i ≠ .halt)
  /-- A load: one low register, and perhaps a draw. -/
  | loaded (d : LowReg) (v : Word) (n : Nat) (e : t = (writeReg (s.withDraws n) d.toReg v).withPc (s.pc + 2#16))
      (hd : destination i = some d.toReg) (hs : isStore i = false) (hb : branchOf i = none) (hi : i ≠ .halt)
  /-- A store: memory and marks, or an output event, and perhaps a draw. -/
  | stored (m : Memory) (l : List Nat) (o : List OutputEvent) (n : Nat)
      (e : t = ((((s.withMem m).withStored l).withOutputs (s.outputs ++ o)).withDraws n).withPc (s.pc + 2#16))
      (hd : destination i = none) (hs : isStore i = true) (hb : branchOf i = none) (hi : i ≠ .halt)
  /-- A branch, taken or not. -/
  | branched (c : Cond) (off : BitVec 8) (hb : branchOf i = some (c, off))
      (e : (conditionTable c s.flags ∧ t = s.withPc (s.pc + branchOffset off)) ∨
        (¬ conditionTable c s.flags ∧ t = s.withPc (s.pc + 2#16)))

/-- A state is put together from its fields. -/
theorem State.ext_fields {s t : State} (h1 : t.regs = s.regs) (h2 : t.pc = s.pc) (h3 : t.flags = s.flags)
    (h4 : t.srUpper = s.srUpper) (h5 : t.mem = s.mem) (h6 : t.halted = s.halted) (h7 : t.stored = s.stored)
    (h8 : t.outputs = s.outputs) (h9 : t.draws = s.draws) (h10 : t.params = s.params) : t = s := by
  cases s
  cases t
  simp_all

theorem retire_shape {i : Instr} {d : Reg} {v : Word} {s t : State} (g : State → State)
    (hg : ∀ u : State, ∃ f : Flags, g u = u.withFlags f) (h : retire d (g (writeReg s d v)) = .next t)
    (hd : destination i = some d) (hs : isStore i = false) (hb : branchOf i = none) (hi : i ≠ .halt) :
    Shape i s t := by
  obtain ⟨f, hf⟩ := hg (writeReg s d v)
  rw [hf] at h
  rcases retire_next h with ⟨rfl, rfl⟩ | ⟨hne, -, rfl⟩
  · exact .jumped v f rfl hd hs hb hi
  · exact .written d v f hne (by simp [hne]) hd hs hb hi

theorem advance_shape {i : Instr} {d : LowReg} {v : Word} {f : Flags} {s t : State}
    (h : advance ((writeReg s d.toReg v).withFlags f) = .next t) (hd : destination i = some d.toReg)
    (hs : isStore i = false) (hb : branchOf i = none) (hi : i ≠ .halt) : Shape i s t := by
  obtain ⟨-, rfl⟩ := advance_next h
  exact .written d.toReg v f (toReg_ne_pc d) (by simp) hd hs hb hi

theorem store_shape {i : Instr} {s u : State} (hregs : u.regs = s.regs) (hpc : u.pc = s.pc)
    (hf : u.flags = s.flags) (hsr : u.srUpper = s.srUpper) (hh : u.halted = s.halted) (hp : u.params = s.params)
    (ho : ∃ o, u.outputs = s.outputs ++ o) (hd : destination i = none) (hs : isStore i = true)
    (hb : branchOf i = none) (hi : i ≠ .halt) : Shape i s (u.withPc (u.pc + 2#16)) := by
  obtain ⟨o, ho⟩ := ho
  refine .stored u.mem u.stored o u.draws ?_ hd hs hb hi
  apply State.ext_fields <;> simp [*]

/-- Everything a next state of `exec` can be. -/
theorem exec_next_shape {i : Instr} {s t : State} (h : exec i s = .next t) : Shape i s t := by
  by_cases hb : ∃ c off, branchOf i = some (c, off)
  · obtain ⟨c, off, hb⟩ := hb
    rw [exec_of_branch hb, branch] at h
    refine .branched c off hb ?_
    split at h
    · next hc => exact .inl ⟨(conditionHolds_iff _ _).1 hc, (branchBy_next h).2⟩
    · next hc => exact .inr ⟨fun e => hc ((conditionHolds_iff _ _).2 e), (advance_next h).2⟩
  cases i <;> try (exfalso; exact hb ⟨_, _, rfl⟩)
  case halt => cases h; exact .halted rfl rfl
  case str rd rb imm =>
    simp only [exec, execStr] at h
    split at h
    · cases h
    · obtain ⟨u, hu, -, rfl⟩ := finishStore_next h
      rcases storeHalfAligned_ok hu with ⟨-, h⟩ | ⟨-, -, h⟩ <;> rcases storeHalf_ok h with ⟨-, rfl⟩ | ⟨-, rfl⟩ <;>
        exact store_shape (by simp) (by simp) (by simp) (by simp) (by simp) (by simp) (by simp) rfl rfl rfl (by simp)
  case strb rd rb imm =>
    simp only [exec, execStrb] at h
    split at h
    · cases h
    · obtain ⟨u, hu, -, rfl⟩ := finishStore_next h
      rcases storeByte_ok hu with ⟨-, rfl⟩ | ⟨-, rfl⟩ <;>
        exact store_shape (by simp) (by simp) (by simp) (by simp) (by simp) (by simp) (by simp) rfl rfl rfl (by simp)
  case ldr rd rb imm =>
    simp only [exec, execLdr] at h
    split at h
    · cases h
    · obtain ⟨v, u, hu, -, rfl⟩ := finishLoad_next h
      rcases loadHalfAligned_ok hu with rfl | rfl
      · exact .loaded rd v u.draws rfl rfl rfl rfl (by simp)
      · exact .loaded rd v _ rfl rfl rfl rfl (by simp)
  case ldrb rd rb imm =>
    simp only [exec, execLdrb] at h
    split at h
    · cases h
    · obtain ⟨v, u, hu, -, rfl⟩ := finishLoad_next h
      obtain ⟨b, hb, -⟩ := loadByteZeroExtended_ok hu
      rcases loadByte_ok hb with ⟨-, -, rfl⟩ | ⟨-, -, rfl⟩
      · exact .loaded rd v _ rfl rfl rfl rfl (by simp)
      · exact .loaded rd v u.draws rfl rfl rfl rfl (by simp)
  case add1 rd rs => exact retire_shape (fun u => setNZCV u _) (fun _ => ⟨_, rfl⟩) h rfl rfl rfl (by simp)
  case mov2 rd rs => exact retire_shape (fun u => setNZ u _) (fun _ => ⟨_, rfl⟩) h rfl rfl rfl (by simp)
  case add2 rd imm =>
    obtain ⟨-, rfl⟩ := advance_next h
    exact .written rd.toReg _ s.flags (toReg_ne_pc rd) (by apply State.ext_fields <;> first | rfl | simp) rfl rfl rfl
      (by simp)
  case and rd rs => exact advance_shape h rfl rfl rfl (by simp)
  case eor rd rs => exact advance_shape h rfl rfl rfl (by simp)
  case asr rd rs => exact advance_shape h rfl rfl rfl (by simp)
  case neg rd rs => exact advance_shape h rfl rfl rfl (by simp)
  case mov1 rd imm => exact advance_shape h rfl rfl rfl (by simp)
  all_goals exact .compared _ (advance_next h).2 rfl rfl rfl (by simp)

end Sys2Proof.Machine
end

