-- ==== Sys2Proof/Laws/PerInstr.lean ====
section
/-! SUPPORT. One statement per instruction, about its syntax: its encoding has the fixed bits of its row of
spec/opcode_table.json. -/

namespace Sys2Proof.Laws.TableRow

/-- The fixed bits of the instruction's row of spec/opcode_table.json: bits 15 down to the first number have the
value of the second. -/
def fixedBits : Instr → Nat × Nat
  | .halt => (0, 0)
  | .mov1 _ _ => (11, 4)
  | .cmp1 _ _ => (11, 5)
  | .and _ _ => (6, 256)
  | .eor _ _ => (6, 257)
  | .asr _ _ => (6, 258)
  | .tst _ _ => (6, 259)
  | .neg _ _ => (6, 260)
  | .cmp2 _ _ => (6, 261)
  | .add1 _ _ => (8, 68)
  | .cmp3H1 _ _ => (7, 139)
  | .cmp3H2 _ _ => (6, 277)
  | .mov2 _ _ => (8, 70)
  | .str _ _ _ => (11, 12)
  | .ldr _ _ _ => (11, 13)
  | .strb _ _ _ => (11, 14)
  | .ldrb _ _ _ => (11, 15)
  | .add2 _ _ => (11, 20)
  | .beq _ => (8, 208)
  | .bne _ => (8, 209)
  | .bcs _ => (8, 210)
  | .bcc _ => (8, 211)
  | .bmi _ => (8, 212)
  | .bpl _ => (8, 213)
  | .bvs _ => (8, 214)
  | .bvc _ => (8, 215)
  | .bhi _ => (8, 216)
  | .bls _ => (8, 217)
  | .bge _ => (8, 218)
  | .blt _ => (8, 219)
  | .bgt _ => (8, 220)
  | .ble _ => (8, 221)

/-- A well-formed instruction's encoding has the fixed bits of its row (30_encoding.md rule R91). -/
def Statement (i : Instr) : Prop :=
  i.wellFormed = true → (encode i).toNat / 2 ^ (fixedBits i).1 = (fixedBits i).2

theorem halt : Statement (.halt) := by
  intro _; decide

theorem mov1 (rd : LowReg) (imm : BitVec 8) : Statement (.mov1 rd imm) := by
  intro h
  have hrd := rd.isLt
  have himm := imm.isLt
  simp only [fixedBits, encode, encodeFormat3_toNat, BitVec.toNat_ofNat]
  omega

theorem cmp1 (rd : LowReg) (imm : BitVec 8) : Statement (.cmp1 rd imm) := by
  intro h
  have hrd := rd.isLt
  have himm := imm.isLt
  simp only [fixedBits, encode, encodeFormat3_toNat, BitVec.toNat_ofNat]
  omega

theorem and (rd : LowReg) (rs : LowReg) : Statement (.and rd rs) := by
  intro h
  have hrd := rd.isLt
  have hrs := rs.isLt
  simp only [fixedBits, encode, encodeFormat4_toNat, BitVec.toNat_ofNat]
  omega

theorem eor (rd : LowReg) (rs : LowReg) : Statement (.eor rd rs) := by
  intro h
  have hrd := rd.isLt
  have hrs := rs.isLt
  simp only [fixedBits, encode, encodeFormat4_toNat, BitVec.toNat_ofNat]
  omega

theorem asr (rd : LowReg) (rs : LowReg) : Statement (.asr rd rs) := by
  intro h
  have hrd := rd.isLt
  have hrs := rs.isLt
  simp only [fixedBits, encode, encodeFormat4_toNat, BitVec.toNat_ofNat]
  omega

theorem tst (rd : LowReg) (rs : LowReg) : Statement (.tst rd rs) := by
  intro h
  have hrd := rd.isLt
  have hrs := rs.isLt
  simp only [fixedBits, encode, encodeFormat4_toNat, BitVec.toNat_ofNat]
  omega

theorem neg (rd : LowReg) (rs : LowReg) : Statement (.neg rd rs) := by
  intro h
  have hrd := rd.isLt
  have hrs := rs.isLt
  simp only [fixedBits, encode, encodeFormat4_toNat, BitVec.toNat_ofNat]
  omega

theorem cmp2 (rd : LowReg) (rs : LowReg) : Statement (.cmp2 rd rs) := by
  intro h
  have hrd := rd.isLt
  have hrs := rs.isLt
  simp only [fixedBits, encode, encodeFormat4_toNat, BitVec.toNat_ofNat]
  omega

theorem add1 (rd : Reg) (rs : Reg) : Statement (.add1 rd rs) := by
  intro h
  have hrd := rd.isLt
  have hrs := rs.isLt
  simp only [fixedBits, encode, encodeFormat5_toNat, BitVec.toNat_ofNat]
  omega

theorem cmp3H1 (rd : Reg) (rs : Reg) : Statement (.cmp3H1 rd rs) := by
  intro h
  have hrd := rd.isLt
  have hrs := rs.isLt
  simp [Instr.wellFormed] at h
  simp only [fixedBits, encode, encodeFormat5_toNat, BitVec.toNat_ofNat]
  omega

theorem cmp3H2 (rd : Reg) (rs : Reg) : Statement (.cmp3H2 rd rs) := by
  intro h
  have hrd := rd.isLt
  have hrs := rs.isLt
  simp [Instr.wellFormed] at h
  simp only [fixedBits, encode, encodeFormat5_toNat, BitVec.toNat_ofNat]
  omega

theorem mov2 (rd : Reg) (rs : Reg) : Statement (.mov2 rd rs) := by
  intro h
  have hrd := rd.isLt
  have hrs := rs.isLt
  simp only [fixedBits, encode, encodeFormat5_toNat, BitVec.toNat_ofNat]
  omega

theorem str (rd : LowReg) (rb : LowReg) (imm : BitVec 5) : Statement (.str rd rb imm) := by
  intro h
  have hrd := rd.isLt
  have hrb := rb.isLt
  have himm := imm.isLt
  simp only [fixedBits, encode, encodeFormat9_toNat, BitVec.toNat_ofNat]
  omega

theorem ldr (rd : LowReg) (rb : LowReg) (imm : BitVec 5) : Statement (.ldr rd rb imm) := by
  intro h
  have hrd := rd.isLt
  have hrb := rb.isLt
  have himm := imm.isLt
  simp only [fixedBits, encode, encodeFormat9_toNat, BitVec.toNat_ofNat]
  omega

theorem strb (rd : LowReg) (rb : LowReg) (imm : BitVec 5) : Statement (.strb rd rb imm) := by
  intro h
  have hrd := rd.isLt
  have hrb := rb.isLt
  have himm := imm.isLt
  simp only [fixedBits, encode, encodeFormat9_toNat, BitVec.toNat_ofNat]
  omega

theorem ldrb (rd : LowReg) (rb : LowReg) (imm : BitVec 5) : Statement (.ldrb rd rb imm) := by
  intro h
  have hrd := rd.isLt
  have hrb := rb.isLt
  have himm := imm.isLt
  simp only [fixedBits, encode, encodeFormat9_toNat, BitVec.toNat_ofNat]
  omega

theorem add2 (rd : LowReg) (imm : BitVec 8) : Statement (.add2 rd imm) := by
  intro h
  have hrd := rd.isLt
  have himm := imm.isLt
  simp only [fixedBits, encode, encodeFormat12_toNat]
  omega

theorem beq (off : BitVec 8) : Statement (.beq off) := by
  intro h
  have hoff := off.isLt
  simp only [fixedBits, encode, encodeFormat16_toNat, BitVec.toNat_ofNat]
  omega

theorem bne (off : BitVec 8) : Statement (.bne off) := by
  intro h
  have hoff := off.isLt
  simp only [fixedBits, encode, encodeFormat16_toNat, BitVec.toNat_ofNat]
  omega

theorem bcs (off : BitVec 8) : Statement (.bcs off) := by
  intro h
  have hoff := off.isLt
  simp only [fixedBits, encode, encodeFormat16_toNat, BitVec.toNat_ofNat]
  omega

theorem bcc (off : BitVec 8) : Statement (.bcc off) := by
  intro h
  have hoff := off.isLt
  simp only [fixedBits, encode, encodeFormat16_toNat, BitVec.toNat_ofNat]
  omega

theorem bmi (off : BitVec 8) : Statement (.bmi off) := by
  intro h
  have hoff := off.isLt
  simp only [fixedBits, encode, encodeFormat16_toNat, BitVec.toNat_ofNat]
  omega

theorem bpl (off : BitVec 8) : Statement (.bpl off) := by
  intro h
  have hoff := off.isLt
  simp only [fixedBits, encode, encodeFormat16_toNat, BitVec.toNat_ofNat]
  omega

theorem bvs (off : BitVec 8) : Statement (.bvs off) := by
  intro h
  have hoff := off.isLt
  simp only [fixedBits, encode, encodeFormat16_toNat, BitVec.toNat_ofNat]
  omega

theorem bvc (off : BitVec 8) : Statement (.bvc off) := by
  intro h
  have hoff := off.isLt
  simp only [fixedBits, encode, encodeFormat16_toNat, BitVec.toNat_ofNat]
  omega

theorem bhi (off : BitVec 8) : Statement (.bhi off) := by
  intro h
  have hoff := off.isLt
  simp only [fixedBits, encode, encodeFormat16_toNat, BitVec.toNat_ofNat]
  omega

theorem bls (off : BitVec 8) : Statement (.bls off) := by
  intro h
  have hoff := off.isLt
  simp only [fixedBits, encode, encodeFormat16_toNat, BitVec.toNat_ofNat]
  omega

theorem bge (off : BitVec 8) : Statement (.bge off) := by
  intro h
  have hoff := off.isLt
  simp only [fixedBits, encode, encodeFormat16_toNat, BitVec.toNat_ofNat]
  omega

theorem blt (off : BitVec 8) : Statement (.blt off) := by
  intro h
  have hoff := off.isLt
  simp only [fixedBits, encode, encodeFormat16_toNat, BitVec.toNat_ofNat]
  omega

theorem bgt (off : BitVec 8) : Statement (.bgt off) := by
  intro h
  have hoff := off.isLt
  simp only [fixedBits, encode, encodeFormat16_toNat, BitVec.toNat_ofNat]
  omega

theorem ble (off : BitVec 8) : Statement (.ble off) := by
  intro h
  have hoff := off.isLt
  simp only [fixedBits, encode, encodeFormat16_toNat, BitVec.toNat_ofNat]
  omega

end Sys2Proof.Laws.TableRow
end

