-- ==== Sys2Proof/Tests/Slice0.lean ====
section
/-! SUPPORT. Tests against the spec's own figures and vectors (95_test_vectors.md, cited by its sections), and for
every obligation with hypotheses a state and operands that meet them, clause by clause. -/

namespace Sys2Proof.Tests

open Sys2Proof.Machine

/-! ### Helpers -/

def nextOf : Result → Option State
  | .next t => some t
  | .fault _ => none
  | .refused _ => none

def faultOf : Result → Option Fault
  | .next _ => none
  | .fault f => some f
  | .refused _ => none

def instrOf : Except Undefined Instr → Option Instr
  | .ok i => some i
  | .error _ => none

def errorOf : Except Undefined Instr → Option Undefined
  | .ok _ => none
  | .error e => some e

def wordOf : Except Fault Word → Option Word
  | .ok w => some w
  | .error _ => none

/-- The four flags written N Z C V. -/
def nzcv (x : BitVec 4) : Flags where
  n := x.getLsbD 3
  z := x.getLsbD 2
  c := x.getLsbD 1
  v := x.getLsbD 0

/-- The settings under which the machine goes on where the parameters at reset stop it. -/
def openParams : Params :=
  { resetParams with wrapPolicy := .wrap, unalignedPolicy := .arbitrary, fetchSeesStores := true }

/-- One device byte at 0xFF00, as program P5 has it. -/
def deviceParams : Params := { openParams with ioRegion := [{ base := 0xFF00, size := 1 }] }

/-- Only 0x0000 to 0x00FF is backed by storage. -/
def smallParams : Params := { openParams with memPopulated := [{ base := 0, size := 0x100 }] }

def machine (p : Params) (f : Flags) (pc : Word) (mem : Memory) (rs : List (Reg × Word)) : State :=
  rs.foldl (fun s x => writeReg s x.1 x.2) { State.reset with params := p, flags := f, pc := pc, mem := mem }

/-- Two registers' contents in R0 and R1, C and V as given, the instruction at 0x0100. -/
def two (f : Flags) (a b : Word) : State := machine openParams f 0x0100#16 [] [(0, a), (1, b)]

/-- What a data-processing instruction shows: R0, the flags, the PC. -/
def shown (r : Result) : Option (Word × Flags × Word) := (nextOf r).map (fun t => (readReg t 0, t.flags, t.pc))

/-! ### Decoding: words written out from the encoding figures (95 sections 1.1 and 2.10) -/

theorem test_decode_format0 : instrOf (decodeHalfword 0b0000000000000000#16) = some .halt := by decide

theorem test_decode_format3 :
    instrOf (decodeHalfword 0b0010011111111111#16) = some (.mov1 7 255#8) ∧
    instrOf (decodeHalfword 0b0010101111111111#16) = some (.cmp1 3 255#8) := by decide

theorem test_decode_format4 :
    instrOf (decodeHalfword 0b0100000000001000#16) = some (.and 0 1) ∧
    instrOf (decodeHalfword 0b0100000001001000#16) = some (.eor 0 1) ∧
    instrOf (decodeHalfword 0b0100000010010001#16) = some (.asr 1 2) ∧
    instrOf (decodeHalfword 0b0100000011001000#16) = some (.tst 0 1) ∧
    instrOf (decodeHalfword 0b0100000100010010#16) = some (.neg 2 2) ∧
    instrOf (decodeHalfword 0b0100000101001000#16) = some (.cmp2 0 1) := by decide

theorem test_decode_format5 :
    instrOf (decodeHalfword 0b0100010010010111#16) = some (.add1 15 2) ∧
    instrOf (decodeHalfword 0b0100010001111000#16) = some (.add1 0 15) ∧
    instrOf (decodeHalfword 0b0100010110000000#16) = some (.cmp3H1 8 0) ∧
    instrOf (decodeHalfword 0b0100010111001000#16) = some (.cmp3H1 8 9) ∧
    instrOf (decodeHalfword 0b0100010101000000#16) = some (.cmp3H2 0 8) ∧
    instrOf (decodeHalfword 0b0100011010111110#16) = some (.mov2 14 7) := by decide

theorem test_decode_format9 :
    instrOf (decodeHalfword 0b0110000001000001#16) = some (.str 1 0 1#5) ∧
    instrOf (decodeHalfword 0b0110111111000010#16) = some (.ldr 2 0 31#5) ∧
    instrOf (decodeHalfword 0b0111000001000001#16) = some (.strb 1 0 1#5) ∧
    instrOf (decodeHalfword 0b0111111111111111#16) = some (.ldrb 7 7 31#5) := by decide

theorem test_decode_format12 : instrOf (decodeHalfword 0b1010011111111111#16) = some (.add2 7 255#8) := by decide

theorem test_decode_format16 :
    instrOf (decodeHalfword 0b1101000000000011#16) = some (.beq 3#8) ∧
    instrOf (decodeHalfword 0b1101000111111110#16) = some (.bne 254#8) ∧
    instrOf (decodeHalfword 0b1101001000000010#16) = some (.bcs 2#8) ∧
    instrOf (decodeHalfword 0b1101001100000000#16) = some (.bcc 0#8) ∧
    instrOf (decodeHalfword 0b1101010000000000#16) = some (.bmi 0#8) ∧
    instrOf (decodeHalfword 0b1101010100000000#16) = some (.bpl 0#8) ∧
    instrOf (decodeHalfword 0b1101011000000000#16) = some (.bvs 0#8) ∧
    instrOf (decodeHalfword 0b1101011100000000#16) = some (.bvc 0#8) ∧
    instrOf (decodeHalfword 0b1101100000000000#16) = some (.bhi 0#8) ∧
    instrOf (decodeHalfword 0b1101100100000000#16) = some (.bls 0#8) ∧
    instrOf (decodeHalfword 0b1101101000000010#16) = some (.bge 2#8) ∧
    instrOf (decodeHalfword 0b1101101100000000#16) = some (.blt 0#8) ∧
    instrOf (decodeHalfword 0b1101110000000000#16) = some (.bgt 0#8) ∧
    instrOf (decodeHalfword 0b1101110111111111#16) = some (.ble 255#8) := by decide

/-- Both ends of each row of rule R92's list that section 2.10 names. -/
theorem test_decode_undefined :
    errorOf (decodeHalfword 0x0001#16) = some .haltUnusedField ∧
    errorOf (decodeHalfword 0x00FF#16) = some .haltUnusedField ∧
    errorOf (decodeHalfword 0x0100#16) = some .format0Op ∧ errorOf (decodeHalfword 0x1FFF#16) = some .format0Op ∧
    errorOf (decodeHalfword 0x3000#16) = some .format3Op ∧ errorOf (decodeHalfword 0x4180#16) = some .format4Op ∧
    errorOf (decodeHalfword 0x43FF#16) = some .format4Op ∧ errorOf (decodeHalfword 0x4500#16) = some .cmpBothLow ∧
    errorOf (decodeHalfword 0x453F#16) = some .cmpBothLow ∧ errorOf (decodeHalfword 0x4700#16) = some .format5Op ∧
    errorOf (decodeHalfword 0x4800#16) = some .noFormat ∧ errorOf (decodeHalfword 0x5000#16) = some .noFormat ∧
    errorOf (decodeHalfword 0x8000#16) = some .noFormat ∧ errorOf (decodeHalfword 0xA800#16) = some .format12Sp ∧
    errorOf (decodeHalfword 0xB000#16) = some .noFormat ∧ errorOf (decodeHalfword 0xC000#16) = some .noFormat ∧
    errorOf (decodeHalfword 0xDE00#16) = some .condition ∧ errorOf (decodeHalfword 0xDF00#16) = some .condition ∧
    errorOf (decodeHalfword 0xE000#16) = some .noFormat ∧ errorOf (decodeHalfword 0xFFFF#16) = some .noFormat := by
  decide

theorem test_decode_bytes :
    (match decodeBytes [0xFE#8, 0xD1#8, 0x00#8] with
      | .ok (i, rest) => decide (i = .bne 0xFE#8) && decide (rest = [0x00#8])
      | .error _ => false) = true ∧
    (match decodeBytes [0xFE#8] with
      | .ok _ => false
      | .error e => decide (e = .tooFewBytes)) = true := by decide

theorem test_encode : encode (.add1 15 2) = 0x4497#16 ∧ encode (.cmp3H2 0 8) = 0x4540#16 ∧
    encode (.ldr 2 0 31#5) = 0x6FC2#16 ∧ encode (.ble 255#8) = 0xDDFF#16 := by decide

theorem test_decode_table_word : decodeTableWord 16 0x4580 = some (.cmp3H1 8 0) ∧
    decodeTableWord 16 0x453F = none := by decide

/-! ### Assembler lines: the spec's programs (95 part 3) and rule R100's limits -/

theorem test_assemble :
    [assemble 0x000C#16 (.b .ne 0x0008#16), assemble 0#16 (.addPc (.r 0) 32), assemble 0#16 (.ldrb (.r 3) (.r 0) 5),
      assemble 0#16 (.str (.r 2) (.r 0) 4), assemble 0#16 (.movReg .lp (.r 7)), assemble 0#16 (.movReg .pc .lp),
      assemble 0#16 (.cmpReg (.r 0) (.r 1)), assemble 0#16 (.cmpReg (.r 8) (.r 0)),
      assemble 0#16 (.cmpReg (.r 0) (.r 8))].map (fun x => x.map encode) =
    [some 0xD1FE#16, some 0xA008#16, some 0x7943#16, some 0x6042#16, some 0x46BE#16, some 0x46F7#16, some 0x4148#16,
      some 0x4580#16, some 0x4540#16] := by decide

theorem test_assemble_limits :
    [assemble 0x0200#16 (.b .eq 0x0300#16), assemble 0x0200#16 (.b .eq 0x0201#16), assemble 0#16 (.addPc (.r 0) 1024),
      assemble 0#16 (.ldr (.r 0) (.r 1) 128), assemble 0#16 (.ldr (.r 0) (.r 1) 2), assemble 0#16 (.ldrb (.r 0) .sp 0),
      assemble 0#16 (.movImm (.r 0) 256), assemble 0#16 (.and (.r 8) (.r 0))] = List.replicate 8 none := by decide

/-! ### WellFormed: an ill-formed term for each check -/

theorem test_wellFormed_cmp3H1 : Instr.wellFormed (.cmp3H1 7 8) = false ∧ Instr.wellFormed (.cmp3H1 8 0) = true := by
  decide

theorem test_wellFormed_cmp3H2_both_low :
    Instr.wellFormed (.cmp3H2 0 7) = false ∧ Instr.wellFormed (.cmp3H2 0 8) = true := by decide

theorem test_wellFormed_cmp3H2_high_first : Instr.wellFormed (.cmp3H2 8 8) = false := by decide

/-! ### Data processing: one step each, values from 95 sections 2.1 to 2.7.  `nextInRange` is the hypothesis of the
result statements, so each test meets them. -/

theorem test_add1_overflow : nextInRange (two (nzcv 0b0000#4) 0x8000#16 0xFFFF#16) ∧
    shown (exec (.add1 0 1) (two (nzcv 0b0000#4) 0x8000#16 0xFFFF#16)) =
      some (0x7FFF#16, nzcv 0b0011#4, 0x0102#16) := by decide

theorem test_add1_same_register :
    shown (exec (.add1 0 0) (two (nzcv 0b0110#4) 0x4000#16 0#16)) = some (0x8000#16, nzcv 0b1001#4, 0x0102#16) := by
  decide

theorem test_add1_to_pc :
    (nextOf (exec (.add1 15 15) (machine resetParams (nzcv 0b1000#4) 0x8000#16 [] []))).map
      (fun t => (t.pc, t.flags)) = some (0x0000#16, nzcv 0b0111#4) := by decide

theorem test_add2_clears_low_bits :
    nextInRange (machine resetParams (nzcv 0b0101#4) 0x0006#16 [] []) ∧
    shown (exec (.add2 0 2#8) (machine resetParams (nzcv 0b0101#4) 0x0006#16 [] [])) =
      some (0x000C#16, nzcv 0b0101#4, 0x0008#16) := by decide

theorem test_add2_wraps :
    shown (exec (.add2 0 255#8) (machine openParams (nzcv 0b0101#4) 0xFFFE#16 [] [])) =
      some (0x03F8#16, nzcv 0b0101#4, 0x0000#16) := by decide

theorem test_and : nextInRange (two (nzcv 0b0111#4) 0xFFFF#16 0x8000#16) ∧
    shown (exec (.and 0 1) (two (nzcv 0b0111#4) 0xFFFF#16 0x8000#16)) =
      some (0x8000#16, nzcv 0b1011#4, 0x0102#16) := by decide

theorem test_eor_self : nextInRange (two (nzcv 0b1001#4) 0x1234#16 0#16) ∧
    shown (exec (.eor 0 0) (two (nzcv 0b1001#4) 0x1234#16 0#16)) =
      some (0x0000#16, nzcv 0b0101#4, 0x0102#16) := by decide

theorem test_tst : nextInRange (two (nzcv 0b1011#4) 0x0004#16 0x0003#16) ∧
    shown (exec (.tst 0 1) (two (nzcv 0b1011#4) 0x0004#16 0x0003#16)) =
      some (0x0004#16, nzcv 0b0111#4, 0x0102#16) := by decide

theorem test_asr_middle : nextInRange (two (nzcv 0b0001#4) 0x8004#16 0x0203#16) ∧
    shown (exec (.asr 0 1) (two (nzcv 0b0001#4) 0x8004#16 0x0203#16)) =
      some (0xF000#16, nzcv 0b1011#4, 0x0102#16) := by decide

/-- The four values where the cases of ASR meet: amounts 0 (also as 256), 15 and 16. -/
theorem test_asr_edges :
    shown (exec (.asr 0 1) (two (nzcv 0b0010#4) 0x8004#16 0x0100#16)) =
      some (0x8004#16, nzcv 0b1010#4, 0x0102#16) ∧
    shown (exec (.asr 0 1) (two (nzcv 0b0000#4) 0x7FFF#16 0x000F#16)) =
      some (0x0000#16, nzcv 0b0110#4, 0x0102#16) ∧
    shown (exec (.asr 0 1) (two (nzcv 0b0000#4) 0x8004#16 0x0010#16)) =
      some (0xFFFF#16, nzcv 0b1010#4, 0x0102#16) ∧
    shown (exec (.asr 0 1) (two (nzcv 0b0010#4) 0x7FFF#16 0x0010#16)) =
      some (0x0000#16, nzcv 0b0100#4, 0x0102#16) := by decide

theorem test_cmp1 : nextInRange (two (nzcv 0b1111#4) 0x0100#16 0#16) ∧
    shown (exec (.cmp1 0 255#8) (two (nzcv 0b1111#4) 0x0100#16 0#16)) =
      some (0x0100#16, nzcv 0b0010#4, 0x0102#16) := by decide

theorem test_cmp1_zero :
    shown (exec (.cmp1 0 0#8) (two (nzcv 0b0000#4) 0xFFFB#16 0#16)) =
      some (0xFFFB#16, nzcv 0b1010#4, 0x0102#16) := by decide

theorem test_cmp2 : nextInRange (two (nzcv 0b0000#4) 0x7FFF#16 0xFFFF#16) ∧
    shown (exec (.cmp2 0 1) (two (nzcv 0b0000#4) 0x7FFF#16 0xFFFF#16)) =
      some (0x7FFF#16, nzcv 0b1001#4, 0x0102#16) := by decide

/-- The PC as first operand is the address of the CMP, and is not written. -/
theorem test_cmp3_high_first : nextInRange (two (nzcv 0b0000#4) 0x0100#16 0#16) ∧
    shown (exec (.cmp3H1 15 0) (two (nzcv 0b0000#4) 0x0100#16 0#16)) =
      some (0x0100#16, nzcv 0b0110#4, 0x0102#16) := by decide

theorem test_cmp3_high_second :
    shown (exec (.cmp3H2 0 8) (machine resetParams (nzcv 0b0000#4) 0x0100#16 [] [(0, 0x8000#16), (8, 1#16)])) =
      some (0x8000#16, nzcv 0b0011#4, 0x0102#16) := by decide

theorem test_mov1 : nextInRange (two (nzcv 0b1111#4) 0#16 0#16) ∧
    shown (exec (.mov1 0 0x80#8) (two (nzcv 0b1111#4) 0#16 0#16)) =
      some (0x0080#16, nzcv 0b0011#4, 0x0102#16) := by decide

theorem test_mov2 : nextInRange (two (nzcv 0b0111#4) 0#16 0x8000#16) ∧
    shown (exec (.mov2 0 1) (two (nzcv 0b0111#4) 0#16 0x8000#16)) =
      some (0x8000#16, nzcv 0b1011#4, 0x0102#16) := by decide

theorem test_mov2_to_pc :
    (nextOf (exec (.mov2 15 14) (machine resetParams (nzcv 0b1111#4) 0x0016#16 [] [(14, 0x000C#16)]))).map
      (fun t => (t.pc, t.flags)) = some (0x000C#16, nzcv 0b0011#4) := by decide

theorem test_neg : nextInRange (two (nzcv 0b0000#4) 0#16 0x8000#16) ∧
    shown (exec (.neg 0 1) (two (nzcv 0b0000#4) 0#16 0x8000#16)) =
      some (0x8000#16, nzcv 0b1001#4, 0x0102#16) := by decide

theorem test_neg_zero :
    shown (exec (.neg 0 1) (two (nzcv 0b1001#4) 5#16 0#16)) = some (0x0000#16, nzcv 0b0110#4, 0x0102#16) := by decide

/-! ### Loads and stores: the start memory and rows of 95 section 2.8 -/

def startMemory : Memory :=
  [(0x20, 0xCD#8), (0x21, 0xAB#8), (0x22, 0x34#8), (0x23, 0x12#8), (0x3F, 0xEE#8), (0x9C, 0x78#8), (0x9D, 0x56#8)]

/-- The start state of section 2.8 under given parameters, R0 as given. -/
def start (p : Params) (r0 : Word) : State :=
  machine p (nzcv 0b1010#4) 0x0000#16 startMemory [(0, r0), (1, 0xBEEF#16)]

theorem test_ldr_far :
    addressInRange (start resetParams 0x0020#16) 0 (4 * (31#5).toNat) ∧ nextInRange (start resetParams 0x0020#16) ∧
    isStorageHalf (start resetParams 0x0020#16) 0x009C#16 ∧
    (nextOf (exec (.ldr 2 0 31#5) (start resetParams 0x0020#16))).map (fun t => (readReg t 2, t.flags, t.pc)) =
      some (0x5678#16, nzcv 0b1010#4, 0x0002#16) := by decide

theorem test_ldr_own_base :
    shown (exec (.ldr 0 0 0#5) (start resetParams 0x0020#16)) = some (0xABCD#16, nzcv 0b1010#4, 0x0002#16) := by
  decide

theorem test_ldrb_far :
    addressInRange (start resetParams 0x0020#16) 0 (31#5).toNat ∧ isStorageByte (start resetParams 0x0020#16) 0x3F#16 ∧
    (nextOf (exec (.ldrb 2 0 31#5) (start resetParams 0x0020#16))).map (fun t => (readReg t 2, t.flags)) =
      some (0x00EE#16, nzcv 0b1010#4) := by decide

theorem test_ldrb_zero_extends :
    (nextOf (exec (.ldrb 2 0 1#5) (start resetParams 0x0020#16))).map (fun t => readReg t 2) = some 0x00AB#16 := by
  decide

theorem test_str :
    addressInRange (start resetParams 0x0020#16) 0 (4 * (1#5).toNat) ∧
    isStorageHalf (start resetParams 0x0020#16) 0x0024#16 ∧
    (nextOf (exec (.str 1 0 1#5) (start resetParams 0x0020#16))).map
      (fun t => (memRead t.mem 0x24, memRead t.mem 0x25, memRead t.mem 0x23, t.stored)) =
      some (some 0xEF#8, some 0xBE#8, some 0x12#8, [0x24, 0x25]) := by decide

theorem test_strb :
    addressInRange (start resetParams 0x0020#16) 0 (0#5).toNat ∧ isStorageByte (start resetParams 0x0020#16) 0x20#16 ∧
    (nextOf (exec (.strb 1 0 0#5) (start resetParams 0x0020#16))).map
      (fun t => (memRead t.mem 0x20, memRead t.mem 0x21, t.stored)) =
      some (some 0xEF#8, some 0xAB#8, [0x20]) := by decide

theorem test_strb_to_device :
    (nextOf (exec (.strb 1 0 0#5) (machine deviceParams (nzcv 0b0001#4) 0x0014#16 []
      [(0, 0xFF00#16), (1, 0x0041#16)]))).map (fun t => (t.outputs, t.mem)) =
      some ([.byte 0xFF00#16 0x41#8], []) := by decide

/-! ### Branches: 95 section 2.9 -/

theorem test_branch_truth_table :
    ([0b1000#4, 0b0110#4, 0b0010#4, 0b0011#4, 0b1001#4, 0b1010#4].map (fun f =>
      [Cond.eq, .ne, .cs, .cc, .mi, .pl, .vs, .vc, .hi, .ls, .ge, .lt, .gt, .le].map
        (fun c => conditionHolds c (nzcv f)))) =
    [ [false, true, false, true, true, false, false, true, false, true, false, true, false, true],
      [true, false, true, false, false, true, false, true, false, true, true, false, false, true],
      [false, true, true, false, false, true, false, true, true, false, true, false, true, false],
      [false, true, true, false, false, true, true, false, true, false, false, true, false, true],
      [false, true, false, true, true, false, true, false, false, true, true, false, true, false],
      [false, true, true, false, true, false, false, true, true, false, false, true, false, true] ] := by decide

/-- Each of the fourteen branches is taken at some flags and not taken at others. -/
theorem test_branch_each_taken :
    [Instr.beq 0x7F#8, .bcs 0x7F#8, .bpl 0x7F#8, .bvc 0x7F#8, .bls 0x7F#8, .bge 0x7F#8, .ble 0x7F#8].map
      (fun i => (nextOf (exec i (machine resetParams (nzcv 0b0110#4) 0x0100#16 [] []))).map (fun t => t.pc)) =
      List.replicate 7 (some 0x01FE#16) ∧
    [Instr.bne 0x80#8, .bcc 0x80#8, .bmi 0x80#8, .bvs 0x80#8, .bgt 0x80#8].map
      (fun i => (nextOf (exec i (machine resetParams (nzcv 0b1001#4) 0x0100#16 [] []))).map (fun t => t.pc)) =
      List.replicate 5 (some 0x0000#16) ∧
    [Instr.bhi 0xFE#8, .blt 0xFE#8].map
      (fun i => (nextOf (exec i (machine resetParams (nzcv 0b0011#4) 0x0100#16 [] []))).map (fun t => t.pc)) =
      List.replicate 2 (some 0x00FC#16) := by decide

theorem test_branch_each_not_taken :
    [Instr.bne 0x7F#8, .bcc 0x7F#8, .bmi 0x7F#8, .bvs 0x7F#8, .bhi 0x7F#8, .blt 0x7F#8, .bgt 0x7F#8].map
      (fun i => (nextOf (exec i (machine resetParams (nzcv 0b0110#4) 0x0100#16 [] []))).map (fun t => t.pc)) =
      List.replicate 7 (some 0x0102#16) ∧
    [Instr.beq 0x7F#8, .bcs 0x7F#8, .bpl 0x7F#8, .bvc 0x7F#8, .ble 0x7F#8].map
      (fun i => (nextOf (exec i (machine resetParams (nzcv 0b1001#4) 0x0100#16 [] []))).map (fun t => t.pc)) =
      List.replicate 5 (some 0x0102#16) ∧
    [Instr.bls 0x7F#8, .bge 0x7F#8].map
      (fun i => (nextOf (exec i (machine resetParams (nzcv 0b0011#4) 0x0100#16 [] []))).map (fun t => t.pc)) =
      List.replicate 2 (some 0x0102#16) := by decide

theorem test_branch_wraps :
    (nextOf (exec (.beq 0x80#8) (machine openParams (nzcv 0b0100#4) 0x0010#16 [] []))).map (fun t => t.pc) =
      some 0xFF10#16 ∧
    (nextOf (exec (.beq 0x7F#8) (machine openParams (nzcv 0b0100#4) 0xFF80#16 [] []))).map (fun t => t.pc) =
      some 0x007E#16 := by decide

/-! ### Reset, HALT and the step: 95 section 2.11 -/

theorem test_reset_nothing_loaded : faultOf (step State.reset) = some .unwrittenMemory := by decide

theorem test_halt : (nextOf (step (State.reset.withFetchWord 16 0x0000))).map (fun t => (t.pc, t.halted)) =
    some (0x0000#16, true) := by decide

theorem test_step_runs_word :
    (nextOf (step (State.reset.withFetchWord 16 0x20FF))).map (fun t => (readReg t 0, t.pc)) =
      some (0x00FF#16, 0x0002#16) := by decide

theorem test_step_undefined : faultOf (step (State.reset.withFetchWord 16 0xFFFF)) = some .undefinedInstruction := by
  decide

theorem test_withFetchWord_last_halfword :
    ((State.reset.withPc 0xFFFE#16).withFetchWord 16 0xABCD).mem = [(0xFFFE, 0xCD#8), (0xFFFF, 0xAB#8)] := by decide

/-! ### Witnesses: states and operands that meet the hypotheses of the obligations -/

theorem witness_DecodeFollowsOpcodeMap :
    ([(0xFFFF#16, 0x0000#16, 0x0000#16), (0xF800#16, 0x2000#16, 0x27FF#16), (0xF800#16, 0x2800#16, 0x2FFF#16),
      (0xFFC0#16, 0x4000#16, 0x403F#16), (0xFFC0#16, 0x4040#16, 0x407F#16), (0xFFC0#16, 0x4080#16, 0x40BF#16),
      (0xFFC0#16, 0x40C0#16, 0x40FF#16), (0xFFC0#16, 0x4100#16, 0x413F#16), (0xFFC0#16, 0x4140#16, 0x417F#16),
      (0xFF00#16, 0x4400#16, 0x44FF#16), (0xFF80#16, 0x4580#16, 0x45FF#16), (0xFFC0#16, 0x4540#16, 0x457F#16),
      (0xFF00#16, 0x4600#16, 0x46FF#16), (0xF800#16, 0x6000#16, 0x67FF#16), (0xF800#16, 0x6800#16, 0x6FFF#16),
      (0xF800#16, 0x7000#16, 0x77FF#16), (0xF800#16, 0x7800#16, 0x7FFF#16), (0xF800#16, 0xA000#16, 0xA7FF#16),
      (0xFF00#16, 0xD000#16, 0xD0FF#16), (0xFF00#16, 0xD100#16, 0xD1FF#16), (0xFF00#16, 0xD200#16, 0xD2FF#16),
      (0xFF00#16, 0xD300#16, 0xD3FF#16), (0xFF00#16, 0xD400#16, 0xD4FF#16), (0xFF00#16, 0xD500#16, 0xD5FF#16),
      (0xFF00#16, 0xD600#16, 0xD6FF#16), (0xFF00#16, 0xD700#16, 0xD7FF#16), (0xFF00#16, 0xD800#16, 0xD8FF#16),
      (0xFF00#16, 0xD900#16, 0xD9FF#16), (0xFF00#16, 0xDA00#16, 0xDAFF#16), (0xFF00#16, 0xDB00#16, 0xDBFF#16),
      (0xFF00#16, 0xDC00#16, 0xDCFF#16), (0xFF00#16, 0xDD00#16, 0xDDFF#16)] :
      List (Word × Word × Word)).all (fun x => x.2.2 &&& x.1 == x.2.1) = true := by decide

theorem witness_DecodeOfEncodeIsIdentity :
    Instr.wellFormed (.cmp3H1 15 15) = true ∧ Instr.wellFormed (.cmp3H2 7 8) = true := by decide

theorem witness_EncodeOfDecodeIsIdentity : decodeHalfword 0x45FF#16 = .ok (.cmp3H1 15 15) := by rfl

theorem witness_UndefinedEncodingsFault :
    wordOf (fetch (State.reset.withFetchWord 16 0x0001)) = some 0x0001#16 ∧ isUndefinedEncoding 0x0001#16 ∧
    wordOf (fetch (State.reset.withFetchWord 16 0x4540)) = some 0x4540#16 ∧ ¬ isUndefinedEncoding 0x4540#16 ∧
    (State.reset.withFetchWord 16 0x4540).halted = false := by decide

/-- At reset, and under parameters that populate no other address than 0 and 1. -/
theorem witness_ResetRunsAddressZero :
    let m : Memory := [(0, 0x05#8), (1, 0x20#8)]
    isStorageHalf { State.reset with mem := m } 0x0000#16 ∧
    isStorageHalf { State.reset with mem := m, params := { resetParams with memPopulated := [{ base := 0, size := 2 }] } }
      0x0000#16 ∧
    memRead m 0 = some 0x05#8 ∧ memRead m 1 = some 0x20#8 ∧
    instrOf (decodeHalfword (0x20#8 ++ 0x05#8)) = some (.mov1 0 5#8) := by decide

theorem witness_StepKeepsInvariant : (start resetParams 0x0020#16).Inv ∧
    (let s := (start resetParams 0x0020#16).withFetchWord 16 0x6041
     s.Inv ∧ (nextOf (step s)).isSome = true) := by decide

/-- An even PC followed by an even one, and the write of an odd value to the PC (0x4497 with R2 = 1). -/
theorem witness_StepKeepsPcEven :
    (nextOf (step (State.reset.withFetchWord 16 0x2005))).map (fun t => t.pc) = some 0x0002#16 ∧
    (let s := (machine resetParams (nzcv 0b0000#4) 0x0010#16 [] [(2, 1#16)]).withFetchWord 16 0x4497
     s.pc.toNat % 2 = 0 ∧ (nextOf (step s)).map (fun t => t.pc) = some 0x0011#16) := by decide

theorem witness_StepKeepsParameters :
    (nextOf (step ((machine deviceParams (nzcv 0b0000#4) 0x0010#16 [] [(0, 0xFF00#16)]).withFetchWord 16 0x7001))).map
      (fun t => t.outputs.length) = some 1 := by decide

/-- A PC at the last halfword, with and without `FETCH_SEES_STORES`. -/
theorem witness_StepRunsDecodedInstruction :
    let s := (machine resetParams (nzcv 0b0000#4) 0xFFFE#16 [] []).withFetchWord 16 0x0000
    s.halted = false ∧ s.pc.toNat % 2 = 0 ∧ isStorageHalf s s.pc ∧ memRead s.mem s.pc.toNat = some 0x00#8 ∧
    memRead s.mem (s.pc.toNat + 1) = some 0x00#8 ∧ s.params.fetchSeesStores = false ∧
    (s.pc.toNat ∉ s.stored ∧ s.pc.toNat + 1 ∉ s.stored) ∧ openParams.fetchSeesStores = true ∧
    instrOf (decodeHalfword (0x00#8 ++ 0x00#8)) = some .halt := by decide

theorem witness_FetchFaultsInOrder_odd :
    let s := machine resetParams (nzcv 0b0000#4) 0xFFFF#16 [] []
    s.halted = false ∧ s.pc.toNat % 2 = 1 ∧ faultOf (step s) = some .oddPC := by decide

/-- A device at the first byte, and one at the second. -/
theorem witness_FetchFaultsInOrder_device :
    let s := machine deviceParams (nzcv 0b0000#4) 0xFF00#16 [] []
    let u := machine { deviceParams with ioRegion := [{ base := 0xFF01, size := 1 }] } (nzcv 0b0000#4) 0xFF00#16 [] []
    s.pc.toNat % 2 = 0 ∧ isIO s s.pc = true ∧ faultOf (step s) = some .fetchFromIO ∧
    isIO u u.pc = false ∧ isIO u (u.pc + 1#16) = true ∧ faultOf (step u) = some .fetchFromIO := by decide

theorem witness_FetchFaultsInOrder_unpopulated :
    let s := machine smallParams (nzcv 0b0000#4) 0x0100#16 [] []
    let u := machine { smallParams with memPopulated := [{ base := 0, size := 0xFF }] } (nzcv 0b0000#4) 0xFE#16 [] []
    isIO s s.pc = false ∧ isIO s (s.pc + 1#16) = false ∧ isPopulated s s.pc = false ∧
    faultOf (step s) = some .unpopulatedAddress ∧
    isPopulated u u.pc = true ∧ isPopulated u (u.pc + 1#16) = false ∧
    faultOf (step u) = some .unpopulatedAddress := by decide

theorem witness_FetchFaultsInOrder_unwritten :
    let s := machine resetParams (nzcv 0b0000#4) 0xFFFE#16 [(0xFFFE, 0x00#8)] []
    isStorageHalf s s.pc ∧ memRead s.mem s.pc.toNat = some 0x00#8 ∧ memRead s.mem (s.pc.toNat + 1) = none ∧
    faultOf (step s) = some .unwrittenMemory := by decide

/-- Program P6's third run: a store over the instruction at address 0. -/
theorem witness_FetchFaultsInOrder_modified :
    let s := (machine resetParams (nzcv 0b0000#4) 0x0000#16 [(0, 0x00#8), (1, 0x00#8)] []).withStored [1]
    isStorageHalf s s.pc ∧ memRead s.mem s.pc.toNat ≠ none ∧ memRead s.mem (s.pc.toNat + 1) ≠ none ∧
    s.params.fetchSeesStores = false ∧ s.pc.toNat + 1 ∈ s.stored ∧ faultOf (step s) = some .fetchOfModifiedCode ∧
    (nextOf (step { s with params := openParams })).map (fun t => t.halted) = some true := by decide

theorem witness_StoreIntoCodeStopsFetch_strb :
    let s := start resetParams 0x0020#16
    ∃ t, exec (.strb 1 0 1#5) s = .next t ∧ effectiveAddress s 0 (byteOffset 1#5) = .ok 0x0021#16 ∧
      isStorageByte s 0x0021#16 ∧ isStorageHalf s 0x0020#16 ∧ 0x0021#16 = 0x0020#16 + 1#16 ∧
      memRead t.mem 0x20 ≠ none ∧ memRead t.mem (0x20 + 1) ≠ none ∧
      s.halted = false ∧ s.params.fetchSeesStores = false ∧
      faultOf (step (t.withPc 0x0020#16)) = some .fetchOfModifiedCode :=
  ⟨_, rfl, rfl, by decide⟩

theorem witness_StoreIntoCodeStopsFetch_str :
    let s := start resetParams 0x0020#16
    ∃ t, exec (.str 1 0 0#5) s = .next t ∧ effectiveAddress s 0 (halfOffset 0#5) = .ok 0x0020#16 ∧
      isStorageHalf s 0x0020#16 ∧ memRead t.mem 0x20 ≠ none ∧ memRead t.mem (0x20 + 1) ≠ none ∧
      s.halted = false ∧ s.params.fetchSeesStores = false ∧
      faultOf (step (t.withPc 0x0020#16)) = some .fetchOfModifiedCode :=
  ⟨_, rfl, rfl, by decide⟩

/-- An unaligned STR over the second byte of one instruction and the first of the next. -/
theorem witness_StoreIntoCodeStopsFetch_unaligned :
    let s := start { openParams with fetchSeesStores := false } 0x0021#16
    ∃ t, exec (.str 1 0 0#5) s = .next t ∧ effectiveAddress s 0 (halfOffset 0#5) = .ok 0x0021#16 ∧
      isStorageHalf s 0x0021#16 ∧ isStorageHalf s 0x0020#16 ∧ isStorageHalf s 0x0022#16 ∧
      0x0021#16 = 0x0020#16 + 1#16 ∧ 0x0021#16 + 1#16 = 0x0022#16 ∧
      memRead t.mem 0x20 ≠ none ∧ memRead t.mem (0x20 + 1) ≠ none ∧
      memRead t.mem 0x22 ≠ none ∧ memRead t.mem (0x22 + 1) ≠ none :=
  ⟨_, rfl, rfl, by decide⟩

/-- Every table statement asks only that `exec` answers a next state. -/
theorem witness_exec_next : ∃ t, exec (.str 1 0 1#5) (start resetParams 0x0020#16) = .next t := ⟨_, rfl⟩

theorem witness_OnlyHaltSetsHalted : ∃ t, exec .halt State.reset = .next t ∧ t.halted = true := ⟨_, rfl, rfl⟩

theorem witness_RegistersWrittenByTable :
    (∃ t, exec (.add1 8 1) (two (nzcv 0b0000#4) 1#16 2#16) = .next t) ∧ (9 : Reg) ≠ Reg.pc ∧
    destination (.add1 8 1) ≠ some 9 := ⟨⟨_, rfl⟩, by decide⟩

theorem witness_FlagsKeptByTable :
    (∃ t, exec (.asr 0 1) (two (nzcv 0b0011#4) 1#16 0x0100#16) = .next t) ∧
    (readReg (two (nzcv 0b0011#4) 1#16 0x0100#16) (1 : LowReg).toReg).toNat % 256 = 0 := ⟨⟨_, rfl⟩, by decide⟩

theorem witness_OnlyStoresChangeMemory :
    (∃ t, exec (.ldr 2 0 0#5) (start resetParams 0x0020#16) = .next t) ∧ isStore (.ldr 2 0 0#5) = false :=
  ⟨⟨_, rfl⟩, by decide⟩

theorem witness_HaltedMachineStaysAsItIs : (State.reset.withHalted true).halted = true := by decide

/-- `nextInRange` at both ends: under `strict` the last halfword but one, under `wrap` the last. -/
theorem witness_nextInRange :
    nextInRange (machine resetParams (nzcv 0b0000#4) 0xFFFC#16 [] []) ∧
    nextInRange (machine openParams (nzcv 0b0000#4) 0xFFFE#16 [] []) ∧
    ¬ nextInRange (machine resetParams (nzcv 0b0000#4) 0xFFFE#16 [] []) := by decide

theorem witness_AsrIsFloorDivision :
    (∃ t, exec (.asr 0 1) (two (nzcv 0b0000#4) 0xFFFB#16 0x000F#16) = .next t) ∧
    0 < (readReg (two (nzcv 0b0000#4) 0xFFFB#16 0x000F#16) (1 : LowReg).toReg).toNat % 256 ∧
    (readReg (two (nzcv 0b0000#4) 0xFFFB#16 0x000F#16) (1 : LowReg).toReg).toNat % 256 < 16 :=
  ⟨⟨_, rfl⟩, by decide⟩

theorem witness_LdrResult :
    let s := start resetParams 0x0020#16
    addressInRange s 0 (4 * (0#5).toNat) ∧ nextInRange s ∧
    0x0020#16 = readReg s (0 : LowReg).toReg + BitVec.ofNat 16 (4 * (0#5).toNat) ∧ (0x0020#16).toNat % 4 = 0 ∧
    isStorageHalf s 0x0020#16 ∧ memRead s.mem 0x20 = some 0xCD#8 ∧ memRead s.mem (0x20 + 1) = some 0xAB#8 := by decide

/-- Under `wrap` the sum may pass 0xFFFF: R0 = 0xFFFC with offset 4 is address 0. -/
theorem witness_LdrResult_wrap :
    let s := machine openParams (nzcv 0b0000#4) 0x0010#16 [(0, 0x01#8), (1, 0x02#8)] [(0, 0xFFFC#16)]
    addressInRange s 0 (4 * (1#5).toNat) ∧
    0x0000#16 = readReg s (0 : LowReg).toReg + BitVec.ofNat 16 (4 * (1#5).toNat) ∧ isStorageHalf s 0#16 ∧
    shown (exec (.ldr 0 0 1#5) s) = some (0x0201#16, nzcv 0b0000#4, 0x0012#16) := by decide

theorem witness_LdrbResult :
    let s := machine resetParams (nzcv 0b0000#4) 0x0010#16 [(0xFFFF, 0x80#8)] [(0, 0xFFFF#16)]
    addressInRange s 0 (0#5).toNat ∧ nextInRange s ∧
    0xFFFF#16 = readReg s (0 : LowReg).toReg + BitVec.ofNat 16 (0#5).toNat ∧ isStorageByte s 0xFFFF#16 ∧
    memRead s.mem (0xFFFF#16).toNat = some 0x80#8 := by decide

theorem witness_StrResult :
    let s := machine resetParams (nzcv 0b0000#4) 0x0010#16 [] [(0, 0xFFFC#16)]
    addressInRange s 0 (4 * (0#5).toNat) ∧ nextInRange s ∧
    0xFFFC#16 = readReg s (0 : LowReg).toReg + BitVec.ofNat 16 (4 * (0#5).toNat) ∧ (0xFFFC#16).toNat % 4 = 0 ∧
    isStorageHalf s 0xFFFC#16 := by decide

theorem witness_StrbResult :
    let s := machine resetParams (nzcv 0b0000#4) 0x0010#16 [] [(0, 0xFFFF#16)]
    addressInRange s 0 (0#5).toNat ∧ nextInRange s ∧
    0xFFFF#16 = readReg s (0 : LowReg).toReg + BitVec.ofNat 16 (0#5).toNat ∧ isStorageByte s 0xFFFF#16 := by decide

theorem witness_UnalignedAccessFaults :
    let s := start resetParams 0x0022#16
    s.params.unalignedPolicy = .fault ∧ addressInRange s 0 (4 * (0#5).toNat) ∧
    (readReg s (0 : LowReg).toReg + BitVec.ofNat 16 (4 * (0#5).toNat)).toNat % 4 ≠ 0 ∧
    faultOf (exec (.ldr 2 0 0#5) s) = some .unalignedHalfword ∧
    faultOf (exec (.str 1 0 0#5) s) = some .unalignedHalfword := by decide

/-- The halfword at 0xFFFF has its second byte at address 0. -/
theorem witness_UnalignedLdrLoadsFreeValue :
    let s := start openParams 0xFFFF#16
    s.params.unalignedPolicy = .arbitrary ∧ addressInRange s 0 (4 * (0#5).toNat) ∧ nextInRange s ∧
    0xFFFF#16 = readReg s (0 : LowReg).toReg + BitVec.ofNat 16 (4 * (0#5).toNat) ∧ (0xFFFF#16).toNat % 4 ≠ 0 ∧
    isStorageHalf s 0xFFFF#16 ∧ (nextOf (exec (.ldr 2 0 0#5) s)).map (fun t => t.draws) = some 1 := by decide

theorem witness_UnalignedStrStoresFreeValue :
    let s := start openParams 0x0021#16
    s.params.unalignedPolicy = .arbitrary ∧ addressInRange s 0 (4 * (0#5).toNat) ∧ nextInRange s ∧
    0x0021#16 = readReg s (0 : LowReg).toReg + BitVec.ofNat 16 (4 * (0#5).toNat) ∧ (0x0021#16).toNat % 4 ≠ 0 ∧
    isStorageHalf s 0x0021#16 ∧
    (nextOf (exec (.str 1 0 0#5) s)).map (fun t => (memRead t.mem 0x20, memRead t.mem 0x23, t.stored)) =
      some (some 0xCD#8, some 0x12#8, [0x21, 0x22]) := by decide

/-- The device byte itself for the byte accesses; for the halfword ones the device byte as first and as second. -/
theorem witness_LoadsFromIoAreFree :
    let s := machine deviceParams (nzcv 0b0000#4) 0x0010#16 [] [(0, 0xFF00#16)]
    let u := machine { deviceParams with ioRegion := [{ base := 0xFF01, size := 1 }] } (nzcv 0b0000#4) 0x0010#16 []
      [(0, 0xFF00#16)]
    nextInRange s ∧ addressInRange s 0 (0#5).toNat ∧ addressInRange s 0 (4 * (0#5).toNat) ∧
    0xFF00#16 = readReg s (0 : LowReg).toReg + BitVec.ofNat 16 (4 * (0#5).toNat) ∧ (0xFF00#16).toNat % 4 = 0 ∧
    isIO s 0xFF00#16 = true ∧ isIO u 0xFF00#16 = false ∧ isIO u (0xFF00#16 + 1#16) = true ∧
    (nextOf (exec (.ldrb 2 0 0#5) s)).map (fun t => t.draws) = some 1 ∧
    (nextOf (exec (.ldr 2 0 0#5) u)).map (fun t => t.draws) = some 1 := by decide

/-- An unaligned halfword whose second byte is the device and whose first is neither populated nor I/O (log 28). -/
theorem witness_io_unaligned :
    let p : Params := { openParams with ioRegion := [{ base := 0xFF00, size := 1 }], memPopulated := [] }
    let s := machine p (nzcv 0b0000#4) 0x0010#16 [] [(0, 0xFEFF#16)]
    nextInRange s ∧ addressInRange s 0 (4 * (0#5).toNat) ∧
    0xFEFF#16 = readReg s (0 : LowReg).toReg + BitVec.ofNat 16 (4 * (0#5).toNat) ∧ (0xFEFF#16).toNat % 4 ≠ 0 ∧
    s.params.unalignedPolicy = .arbitrary ∧ isIO s (0xFEFF#16 + 1#16) = true ∧ isIO s 0xFEFF#16 = false ∧
    isPopulated s 0xFEFF#16 = false ∧
    (nextOf (exec (.ldr 2 0 0#5) s)).map (fun t => t.draws) = some 1 ∧
    (nextOf (exec (.str 2 0 0#5) s)).map (fun t => (t.outputs.length, t.mem, t.draws)) = some (1, [], 1) := by decide

theorem witness_StoresToIoAreEvents :
    let s := machine { deviceParams with ioRegion := [{ base := 0xFF01, size := 1 }] } (nzcv 0b0000#4) 0x0010#16 []
      [(0, 0xFF00#16), (1, 0xBEEF#16)]
    nextInRange s ∧ addressInRange s 0 (1#5).toNat ∧ addressInRange s 0 (4 * (0#5).toNat) ∧
    0xFF01#16 = readReg s (0 : LowReg).toReg + BitVec.ofNat 16 (1#5).toNat ∧ isIO s 0xFF01#16 = true ∧
    0xFF00#16 = readReg s (0 : LowReg).toReg + BitVec.ofNat 16 (4 * (0#5).toNat) ∧ (0xFF00#16).toNat % 4 = 0 ∧
    (nextOf (exec (.strb 1 0 1#5) s)).map (fun t => t.outputs) = some [.byte 0xFF01#16 0xEF#8] ∧
    (nextOf (exec (.str 1 0 0#5) s)).map (fun t => (t.outputs, t.mem)) =
      some ([.halfword 0xFF00#16 0xBEEF#16], []) := by decide

/-- The first address past the storage, and a halfword half past it. -/
theorem witness_UnpopulatedAccessFaults :
    let s := machine smallParams (nzcv 0b0000#4) 0x0010#16 [] [(0, 0x0100#16), (1, 0x00FF#16)]
    addressInRange s 0 (0#5).toNat ∧ addressInRange s 0 (4 * (0#5).toNat) ∧
    0x0100#16 = readReg s (0 : LowReg).toReg + BitVec.ofNat 16 (4 * (0#5).toNat) ∧ (0x0100#16).toNat % 4 = 0 ∧
    isIO s 0x0100#16 = false ∧ isIO s (0x0100#16 + 1#16) = false ∧ isPopulated s 0x0100#16 = false ∧
    s.params.unalignedPolicy = .arbitrary ∧ isPopulated s 0x00FF#16 = true ∧
    isPopulated s (0x00FF#16 + 1#16) = false ∧
    faultOf (exec (.ldrb 2 0 0#5) s) = some .unpopulatedAddress ∧
    faultOf (exec (.str 2 1 0#5) s) = some .unpopulatedAddress := by decide

theorem witness_UnwrittenLoadFaults :
    let s := machine resetParams (nzcv 0b0000#4) 0x0010#16 [(0x20, 0xCD#8)] [(0, 0x0020#16)]
    addressInRange s 0 (1#5).toNat ∧ 0x0021#16 = readReg s (0 : LowReg).toReg + BitVec.ofNat 16 (1#5).toNat ∧
    isStorageByte s 0x0021#16 ∧ memRead s.mem (0x0021#16).toNat = none ∧
    addressInRange s 0 (4 * (0#5).toNat) ∧
    0x0020#16 = readReg s (0 : LowReg).toReg + BitVec.ofNat 16 (4 * (0#5).toNat) ∧ isStorageHalf s 0x0020#16 ∧
    memRead s.mem (0x0020#16).toNat = some 0xCD#8 ∧ memRead s.mem ((0x0020#16).toNat + 1) = none ∧
    faultOf (exec (.ldrb 2 0 1#5) s) = some .unwrittenMemory ∧
    faultOf (exec (.ldr 2 0 0#5) s) = some .unwrittenMemory := by decide

/-- The first sum past 0xFFFF, for the byte and the halfword forms (95 section 2.8). -/
theorem witness_AddressWrapFaults_access :
    let s := machine resetParams (nzcv 0b0000#4) 0x0010#16 [] [(0, 0xFFFF#16), (1, 0xFFFC#16)]
    s.params.wrapPolicy = .strict ∧ 65536 ≤ (readReg s (0 : LowReg).toReg).toNat + (1#5).toNat ∧
    65536 ≤ (readReg s (1 : LowReg).toReg).toNat + 4 * (1#5).toNat ∧
    faultOf (exec (.ldrb 2 0 1#5) s) = some .addressWrap ∧ faultOf (exec (.ldr 2 1 1#5) s) = some .addressWrap := by
  decide

/-- Targets below 0 and above 0xFFFF (95 section 2.9). -/
theorem witness_AddressWrapFaults_branch :
    let s := machine resetParams (nzcv 0b0100#4) 0x0010#16 [] []
    let u := machine resetParams (nzcv 0b0100#4) 0xFFFE#16 [] []
    branchOf (.beq 0x80#8) = some (.eq, 0x80#8) ∧ conditionTable .eq s.flags ∧ s.params.wrapPolicy = .strict ∧
    (s.pc.toNat : Int) + 2 * (0x80#8).toInt < 0 ∧ 65536 ≤ (u.pc.toNat : Int) + 2 * (0x01#8).toInt ∧
    faultOf (exec (.beq 0x80#8) s) = some .addressWrap ∧ faultOf (exec (.beq 0x01#8) u) = some .addressWrap := by
  decide

theorem witness_StoreFrame :
    (∃ t, exec (.str 1 0 1#5) (start resetParams 0x0020#16) = .next t ∧
      effectiveAddress (start resetParams 0x0020#16) 0 (halfOffset 1#5) = .ok 0x0024#16) ∧
    (∃ t, exec (.strb 1 0 1#5) (start resetParams 0x0020#16) = .next t ∧
      effectiveAddress (start resetParams 0x0020#16) 0 (byteOffset 1#5) = .ok 0x0021#16) :=
  ⟨⟨_, rfl, rfl⟩, ⟨_, rfl, rfl⟩⟩

theorem witness_StoredHalfwordIsLoaded :
    ∃ t u v w, exec (.str 1 0 0#5) (start resetParams 0x0020#16) = .next t ∧ exec (.ldr 2 0 0#5) t = .next u ∧
      exec (.ldrb 2 0 0#5) t = .next v ∧ exec (.ldrb 2 0 1#5) t = .next w ∧
      effectiveAddress (start resetParams 0x0020#16) 0 (halfOffset 0#5) = .ok 0x0020#16 ∧
      effectiveAddress (start resetParams 0x0020#16) 0 (byteOffset 0#5) = .ok 0x0020#16 ∧
      effectiveAddress (start resetParams 0x0020#16) 0 (byteOffset 1#5) = .ok (0x0020#16 + 1#16) ∧
      (0x0020#16).toNat % 4 = 0 ∧ isStorageHalf (start resetParams 0x0020#16) 0x0020#16 :=
  ⟨_, _, _, _, rfl, rfl, rfl, rfl, rfl, rfl, rfl, by decide⟩

/-- Program P2's first loads and stores. -/
theorem witness_StoredBytesAreLoadedAsHalfword :
    ∃ t u v, exec (.strb 1 0 0#5) (start resetParams 0x0020#16) = .next t ∧ exec (.strb 0 0 1#5) t = .next u ∧
      exec (.ldr 2 0 0#5) u = .next v ∧
      effectiveAddress (start resetParams 0x0020#16) 0 (byteOffset 0#5) = .ok 0x0020#16 ∧
      effectiveAddress (start resetParams 0x0020#16) 0 (byteOffset 1#5) = .ok (0x0020#16 + 1#16) ∧
      effectiveAddress (start resetParams 0x0020#16) 0 (halfOffset 0#5) = .ok 0x0020#16 ∧
      (0x0020#16).toNat % 4 = 0 ∧ isStorageHalf (start resetParams 0x0020#16) 0x0020#16 ∧
      readReg v 2 = 0x20EF#16 :=
  ⟨_, _, _, rfl, rfl, rfl, rfl, rfl, rfl, by decide⟩

/-- Taken to the last target inside the range, and not taken at the last halfword but one. -/
theorem witness_BranchResult :
    let s := machine resetParams (nzcv 0b0100#4) 0xFFFC#16 [] []
    branchOf (.beq 0x01#8) = some (.eq, 0x01#8) ∧ conditionTable .eq s.flags ∧ targetInRange s 0x01#8 ∧
    branchOf (.bne 0x01#8) = some (.ne, 0x01#8) ∧ ¬ conditionTable .ne s.flags ∧ nextInRange s := by decide

theorem witness_ConditionsAfterComparison :
    comparands (two (nzcv 0b0000#4) 0x8000#16 1#16) (.cmp2 0 1) = some (0x8000#16, 1#16) ∧
    (nextOf (exec (.cmp2 0 1) (two (nzcv 0b0000#4) 0x8000#16 1#16))).map (fun t => t.flags) =
      some (nzcv 0b0011#4) := by decide

theorem witness_BranchToItselfRunsForever :
    let s := (machine resetParams (nzcv 0b0100#4) 0x0002#16 [] []).withFetchWord 16 0xD000
    s.halted = false ∧ wordOf (fetch s) = some 0xD000#16 ∧ instrOf (decodeHalfword 0xD000#16) = some (.beq 0#8) ∧
    branchOf (.beq 0#8) = some (.eq, 0#8) ∧ conditionTable .eq s.flags := by decide

/-- One instruction for each clause. -/
theorem witness_PcAfterEachInstruction :
    (∃ t, exec .halt State.reset = .next t) ∧ (∃ t, exec (.add1 Reg.pc 0) State.reset = .next t) ∧
    (∃ t, exec (.mov2 Reg.pc 0) State.reset = .next t) ∧ (∃ t, exec (.beq 0x7F#8) State.reset = .next t) ∧
    ¬ conditionTable .eq State.reset.flags ∧ (∃ t, exec (.bne 0x7F#8) State.reset = .next t) ∧
    conditionTable .ne State.reset.flags ∧ (∃ t, exec (.cmp3H1 15 0) State.reset = .next t) ∧
    destination (.cmp3H1 15 0) ≠ some Reg.pc :=
  ⟨⟨_, rfl⟩, ⟨_, rfl⟩, ⟨_, rfl⟩, ⟨_, rfl⟩, by decide, ⟨_, rfl⟩, by decide, ⟨_, rfl⟩, by decide⟩

theorem witness_LastHalfwordIsNotLeft :
    let s := machine resetParams (nzcv 0b0000#4) 0xFFFE#16 [] []
    s.params.wrapPolicy = .strict ∧ 65536 ≤ s.pc.toNat + 2 ∧ Instr.mov2 0 1 ≠ .halt ∧
    destination (.mov2 0 1) ≠ some Reg.pc ∧ branchOf (.mov2 0 1) = none ∧ ¬ conditionTable .eq s.flags ∧
    faultOf (exec (.mov2 0 1) s) = some .addressWrap ∧ faultOf (exec (.beq 0#8) s) = some .addressWrap := by decide

/-- Two states that differ in R8 alone. -/
theorem witness_HighRegistersOnlyThroughFormat5 :
    let s := two (nzcv 0b0000#4) 1#16 2#16
    isHiOperation (.and 0 1) = false ∧ (s.withRegs (s.regs.set 8 0xFFFF#16)).regs ≠ s.regs ∧
    ∀ r : LowReg, readReg (s.withRegs (s.regs.set 8 0xFFFF#16)) r.toReg = readReg s r.toReg := by decide

theorem witness_FlagsReadOnlyByBranches : branchOf (.asr 0 1) = none ∧ nzcv 0b1111#4 ≠ nzcv 0b0000#4 := by decide

/-- Storage with a value at addresses 0 and 1, a device everywhere else. -/
theorem witness_EveryInstructionCompletes :
    let p : Params := { openParams with ioRegion := [{ base := 2, size := 65534 }] }
    let s := machine p (nzcv 0b0000#4) 0x0000#16 [(0, 0x12#8), (1, 0x34#8)] []
    s.params.wrapPolicy = .wrap ∧ s.params.unalignedPolicy = .arbitrary ∧ isIO s 1#16 = false ∧
    ∀ a : Word, isIO s a = true ∨ (isPopulated s a = true ∧ memRead s.mem a.toNat ≠ none) := by
  refine ⟨rfl, rfl, by decide, fun a => ?_⟩
  have ha := a.isLt
  have h : a = 0#16 ∨ a = 1#16 ∨ 2 ≤ a.toNat := by
    simp only [← BitVec.toNat_inj, BitVec.toNat_ofNat]
    omega
  rcases h with rfl | rfl | h
  · exact .inr (by decide)
  · exact .inr (by decide)
  · refine .inl ?_
    simp only [isIO, machine, List.foldl, List.any, Region.holds, Bool.or_false, Bool.and_eq_true, decide_eq_true_eq]
    omega

theorem witness_StopsOfExec :
    faultOf (exec (.mov1 0 0#8) (machine resetParams (nzcv 0b0000#4) 0xFFFE#16 [] [])) = some .addressWrap ∧
    faultOf (exec (.str 0 0 0#5) (machine resetParams (nzcv 0b0000#4) 0#16 [] [(0, 2#16)])) =
      some .unalignedHalfword ∧
    faultOf (exec (.strb 0 0 0#5) (machine smallParams (nzcv 0b0000#4) 0#16 [] [(0, 0x0100#16)])) =
      some .unpopulatedAddress ∧
    faultOf (exec (.ldrb 0 0 0#5) (machine resetParams (nzcv 0b0000#4) 0#16 [] [])) = some .unwrittenMemory := by
  decide

/-- A line, an instruction and a branch at the two ends of the address space, and a taken branch. -/
theorem witness_AssemblerLines :
    assemble 0#16 (.movImm (.r 7) 255) = some (.mov1 7 0xFF#8) ∧ Instr.wellFormed (.beq 0x80#8) = true ∧
    branchOf (.beq 0x80#8) = some (.eq, 0x80#8) ∧ 0 ≤ ((0x0100#16).toNat : Int) + 2 * (0x80#8).toInt ∧
    ((0xFF00#16).toNat : Int) + 2 * (0x7F#8).toInt < 65536 ∧
    (let s := machine resetParams (nzcv 0b0100#4) 0x0100#16 [] []
     assemble s.pc (.b .eq 0x0000#16) = some (.beq 0x80#8) ∧ conditionTable .eq s.flags) := by decide

end Sys2Proof.Tests
end

section
/-! PROOF. Noninterference between two runs of one instruction (10_state.md rules R23 and R35).  The two states run in
lockstep: their registers stay related by `P`, their flags by `Q`, and all else in them is equal.  What an instruction
cannot read, `P` or `Q` may leave different. -/

namespace Sys2Proof.Machine

/-! ### States that run in lockstep -/

/-- Registers related by `P`, flags related by `Q`, everything else equal. -/
structure Alike (P : Vector Word 15 → Vector Word 15 → Prop) (Q : Flags → Flags → Prop) (t u : State) : Prop where
  regs : P t.regs u.regs
  flags : Q t.flags u.flags
  rest : (u.withRegs t.regs).withFlags t.flags = t

/-- A relation of register files that the low registers cannot tell from equality. -/
structure LowRegsAgree (P : Vector Word 15 → Vector Word 15 → Prop) : Prop where
  read : ∀ {x y}, P x y → ∀ r : LowReg, y[r.val] = x[r.val]
  write : ∀ {x y}, P x y → ∀ (r : LowReg) (v : Word), P (x.set r.val v) (y.set r.val v)

/-- A relation of flags that holds of equal flags and that every flag write keeps: N and Z together, or ASR's C. -/
structure FlagWritesKeep (Q : Flags → Flags → Prop) : Prop where
  same : ∀ f, Q f f
  writeNZ : ∀ {f g}, Q f g → ∀ n z, Q { f with n := n, z := z } { g with n := n, z := z }
  writeAsrC : ∀ {f g}, Q f g → ∀ a k, Q { f with c := asrCarry a k f.c } { g with c := asrCarry a k g.c }

theorem lowRegsAgree_eq : LowRegsAgree Eq where
  read h _ := by rw [h]
  write h _ _ := by rw [h]

theorem flagWritesKeep_eq : FlagWritesKeep Eq where
  same _ := rfl
  writeNZ h _ _ := by rw [h]
  writeAsrC h _ _ := by rw [h]

/-- Two accesses that fail alike, or answer values related by `R`. -/
inductive AccessesAlike {α : Type} (R : α → α → Prop) : Except Fault α → Except Fault α → Prop
  | ok {x y : α} (h : R x y) : AccessesAlike R (.ok x) (.ok y)
  | error (f : Fault) : AccessesAlike R (.error f) (.error f)

/-- Two executions that stop with the same fault, or answer next states related by `R`. -/
inductive ResultsAlike (R : State → State → Prop) : Result → Result → Prop
  | next {t u : State} (h : R t u) : ResultsAlike R (.next t) (.next u)
  | fault (f : Fault) : ResultsAlike R (.fault f) (.fault f)

/-- What a load answers: the same value, and states in lockstep. -/
def SameValue {α : Type} (R : State → State → Prop) (x y : α × State) : Prop := x.1 = y.1 ∧ R x.2 y.2

theorem readReg_toReg (s : State) (r : LowReg) : readReg s r.toReg = s.regs[r.val] := by
  simp [readReg, reg_lt_of_ne_pc (toReg_ne_pc r)]

theorem writeReg_toReg (s : State) (r : LowReg) (v : Word) :
    writeReg s r.toReg v = s.withRegs (s.regs.set r.val v) := by
  simp [writeReg, reg_lt_of_ne_pc (toReg_ne_pc r)]

section Lockstep

variable {P : Vector Word 15 → Vector Word 15 → Prop} {Q : Flags → Flags → Prop} {t u : State}

/-! ### What two states in lockstep have in common -/

theorem Alike.pc_eq (h : Alike P Q t u) : u.pc = t.pc := (congrArg State.pc h.rest :)
theorem Alike.mem_eq (h : Alike P Q t u) : u.mem = t.mem := (congrArg State.mem h.rest :)
theorem Alike.stored_eq (h : Alike P Q t u) : u.stored = t.stored := (congrArg State.stored h.rest :)
theorem Alike.outputs_eq (h : Alike P Q t u) : u.outputs = t.outputs := (congrArg State.outputs h.rest :)
theorem Alike.draws_eq (h : Alike P Q t u) : u.draws = t.draws := (congrArg State.draws h.rest :)
theorem Alike.params_eq (h : Alike P Q t u) : u.params = t.params := (congrArg State.params h.rest :)

theorem Alike.withRegs_eq (h : Alike P Eq t u) : u.withRegs t.regs = t := by
  have hr := h.rest
  rw [h.flags] at hr
  exact hr

theorem Alike.withFlags_eq (h : Alike Eq Q t u) : u.withFlags t.flags = t := by
  have hr := h.rest
  rw [h.regs] at hr
  exact hr

theorem Alike.isIO_eq (h : Alike P Q t u) (a : Word) : isIO u a = isIO t a := isIO_congr a h.params_eq

theorem Alike.isPopulated_eq (h : Alike P Q t u) (a : Word) : isPopulated u a = isPopulated t a :=
  isPopulated_congr a h.params_eq

theorem Alike.isIOHalf_eq (h : Alike P Q t u) (a : Word) : isIOHalf u a = isIOHalf t a := by
  simp only [isIOHalf, h.isIO_eq]

theorem Alike.halfExists_eq (h : Alike P Q t u) (a : Word) : halfExists u a = halfExists t a := by
  simp only [halfExists, h.isIOHalf_eq, h.isPopulated_eq]

theorem Alike.readLow_eq (hP : LowRegsAgree P) (h : Alike P Q t u) (r : LowReg) : readLow u r = readLow t r := by
  simp only [readLow_def, readReg_toReg, hP.read h.regs r]

theorem Alike.readReg_eq (h : Alike Eq Q t u) (r : Reg) : readReg u r = readReg t r :=
  readReg_congr h.regs.symm h.pc_eq r

theorem Alike.effectiveAddress_eq (hP : LowRegsAgree P) (h : Alike P Q t u) (rb : LowReg) (n : Nat) :
    effectiveAddress u rb n = effectiveAddress t rb n :=
  effectiveAddress_congr n h.params_eq (h.readLow_eq hP rb)

/-! ### Updates that keep the lockstep -/

theorem Alike.withPc (h : Alike P Q t u) (a : Word) : Alike P Q (t.withPc a) (u.withPc a) :=
  ⟨h.regs, h.flags, congrArg (·.withPc a) h.rest⟩

theorem Alike.withMem (h : Alike P Q t u) (m : Memory) : Alike P Q (t.withMem m) (u.withMem m) :=
  ⟨h.regs, h.flags, congrArg (·.withMem m) h.rest⟩

theorem Alike.withStored (h : Alike P Q t u) (l : List Nat) : Alike P Q (t.withStored l) (u.withStored l) :=
  ⟨h.regs, h.flags, congrArg (·.withStored l) h.rest⟩

theorem Alike.withOutputs (h : Alike P Q t u) (l : List OutputEvent) :
    Alike P Q (t.withOutputs l) (u.withOutputs l) :=
  ⟨h.regs, h.flags, congrArg (·.withOutputs l) h.rest⟩

theorem Alike.withHalted (h : Alike P Q t u) (b : Bool) : Alike P Q (t.withHalted b) (u.withHalted b) :=
  ⟨h.regs, h.flags, congrArg (·.withHalted b) h.rest⟩

theorem Alike.withDraws (h : Alike P Q t u) (n : Nat) : Alike P Q (t.withDraws n) (u.withDraws n) :=
  ⟨h.regs, h.flags, congrArg (·.withDraws n) h.rest⟩

theorem Alike.withRegs (h : Alike P Q t u) {x y : Vector Word 15} (hxy : P x y) :
    Alike P Q (t.withRegs x) (u.withRegs y) :=
  ⟨hxy, h.flags, congrArg (·.withRegs x) h.rest⟩

theorem Alike.withFlags (h : Alike P Q t u) {f g : Flags} (hfg : Q f g) :
    Alike P Q (t.withFlags f) (u.withFlags g) :=
  ⟨h.regs, hfg, congrArg (·.withFlags f) h.rest⟩

theorem Alike.writeLow (hP : LowRegsAgree P) (h : Alike P Q t u) (r : LowReg) (v : Word) :
    Alike P Q (writeLow t r v) (writeLow u r v) := by
  simp only [writeLow_def, writeReg_toReg]
  exact h.withRegs (hP.write h.regs r v)

theorem Alike.writeReg (h : Alike Eq Q t u) (r : Reg) (v : Word) : Alike Eq Q (writeReg t r v) (writeReg u r v) := by
  unfold Machine.writeReg
  split
  · exact h.withRegs (by rw [h.regs])
  · exact h.withPc v

theorem Alike.setNZ (hQ : FlagWritesKeep Q) (h : Alike P Q t u) (r : Word) : Alike P Q (setNZ t r) (setNZ u r) :=
  h.withFlags (hQ.writeNZ h.flags _ _)

theorem Alike.setNZCV (hQ : FlagWritesKeep Q) (h : Alike P Q t u) (x : Arith) :
    Alike P Q (setNZCV t x) (setNZCV u x) :=
  h.withFlags (hQ.same _)

/-- ASR's C may be the old one, which need not be the same in both states. -/
theorem Alike.setC_asrCarry (hQ : FlagWritesKeep Q) (h : Alike P Q t u) (a : Word) (k : Nat) :
    Alike P Q (setC t (asrCarry a k t.flags.c)) (setC u (asrCarry a k u.flags.c)) :=
  h.withFlags (hQ.writeAsrC h.flags a k)

theorem Alike.putByte (h : Alike P Q t u) (a : Word) (b : Byte) : Alike P Q (putByte t a b) (putByte u a b) := by
  simp only [Machine.putByte, h.mem_eq, h.stored_eq]
  exact (h.withMem _).withStored _

theorem Alike.draw (h : Alike P Q t u) : Alike P Q (t.withDraws (t.draws + 1)) (u.withDraws (u.draws + 1)) := by
  rw [h.draws_eq]
  exact h.withDraws _

theorem Alike.send (h : Alike P Q t u) (e : OutputEvent) :
    Alike P Q (t.withOutputs (t.outputs ++ [e])) (u.withOutputs (u.outputs ++ [e])) := by
  rw [h.outputs_eq]
  exact h.withOutputs _

/-! ### The program counter -/

theorem Alike.advance (h : Alike P Q t u) : ResultsAlike (Alike P Q) (advance t) (advance u) := by
  simp only [Machine.advance, h.params_eq, h.pc_eq]
  split
  · exact .fault _
  · exact .next (h.withPc _)

theorem Alike.retire (h : Alike P Q t u) (d : Reg) : ResultsAlike (Alike P Q) (retire d t) (retire d u) := by
  unfold Machine.retire
  split
  · exact .next h
  · exact h.advance

theorem Alike.branchBy (h : Alike P Q t u) (off : Word) :
    ResultsAlike (Alike P Q) (branchBy t off) (branchBy u off) := by
  simp only [Machine.branchBy, h.params_eq, h.pc_eq]
  split
  · exact .fault _
  · exact .next (h.withPc _)

theorem Alike.branch (h : Alike P Eq t u) (c : Cond) (off : BitVec 8) :
    ResultsAlike (Alike P Eq) (branch c off t) (branch c off u) := by
  unfold Machine.branch
  rw [← h.flags]
  split
  · exact h.branchBy _
  · exact h.advance

/-! ### Loads -/

theorem Alike.freeHalf (h : Alike P Q t u) :
    SameValue (Alike P Q) (Config.freeHalf t.draws, t.withDraws (t.draws + 1))
      (Config.freeHalf u.draws, u.withDraws (u.draws + 1)) :=
  ⟨congrArg Config.freeHalf h.draws_eq.symm, h.draw⟩

theorem Alike.loadByte (h : Alike P Q t u) (a : Word) :
    AccessesAlike (SameValue (Alike P Q)) (loadByte t a) (loadByte u a) := by
  simp only [Machine.loadByte, h.isIO_eq, h.isPopulated_eq, h.mem_eq]
  split
  · exact .ok ⟨congrArg Config.freeByte h.draws_eq.symm, h.draw⟩
  · split
    · split
      · exact .ok ⟨rfl, h⟩
      · exact .error _
    · exact .error _

theorem Alike.loadByteZeroExtended (h : Alike P Q t u) (a : Word) :
    AccessesAlike (SameValue (Alike P Q)) (loadByteZeroExtended t a) (loadByteZeroExtended u a) := by
  have hb := h.loadByte a
  unfold Machine.loadByteZeroExtended
  generalize Machine.loadByte t a = x, Machine.loadByte u a = y at hb ⊢
  cases hb with
  | ok hxy => exact .ok ⟨congrArg (BitVec.setWidth 16) hxy.1, hxy.2⟩
  | error f => exact .error f

theorem Alike.loadHalf (h : Alike P Q t u) (a : Word) :
    AccessesAlike (SameValue (Alike P Q)) (loadHalf t a) (loadHalf u a) := by
  simp only [Machine.loadHalf, h.isIOHalf_eq, h.isPopulated_eq, h.mem_eq]
  split
  · exact .ok h.freeHalf
  · split
    · split
      · exact .ok ⟨rfl, h⟩
      · exact .error _
    · exact .error _

theorem Alike.loadHalfAligned (h : Alike P Q t u) (a : Word) :
    AccessesAlike (SameValue (Alike P Q)) (loadHalfAligned t a) (loadHalfAligned u a) := by
  simp only [Machine.loadHalfAligned, h.params_eq, h.halfExists_eq]
  split
  · exact h.loadHalf a
  · split
    · exact .error _
    · split
      · exact .ok h.freeHalf
      · exact .error _

theorem AccessesAlike.finishLoad (hP : LowRegsAgree P) (rd : LowReg) {x y : Except Fault (Word × State)}
    (h : AccessesAlike (SameValue (Alike P Q)) x y) : ResultsAlike (Alike P Q) (finishLoad rd x) (finishLoad rd y) := by
  cases h with
  | @ok x y h =>
    obtain ⟨v, t⟩ := x
    obtain ⟨w, u⟩ := y
    obtain ⟨rfl, h⟩ := h
    exact (h.writeLow hP rd v).advance
  | error f => exact .fault f

/-! ### Stores -/

theorem Alike.storeByte (h : Alike P Q t u) (a : Word) (v : Byte) :
    AccessesAlike (Alike P Q) (storeByte t a v) (storeByte u a v) := by
  simp only [Machine.storeByte, h.isIO_eq, h.isPopulated_eq]
  split
  · exact .ok (h.send _)
  · split
    · exact .ok (h.putByte a v)
    · exact .error _

theorem Alike.storeHalf (h : Alike P Q t u) (a v : Word) :
    AccessesAlike (Alike P Q) (storeHalf t a v) (storeHalf u a v) := by
  simp only [Machine.storeHalf, h.isIOHalf_eq, h.isPopulated_eq]
  split
  · exact .ok (h.send _)
  · split
    · exact .ok ((h.putByte _ _).putByte _ _)
    · exact .error _

theorem Alike.storeHalfAligned (h : Alike P Q t u) (a v : Word) :
    AccessesAlike (Alike P Q) (storeHalfAligned t a v) (storeHalfAligned u a v) := by
  simp only [Machine.storeHalfAligned, h.params_eq, h.draws_eq]
  split
  · exact h.storeHalf a v
  · split
    · exact .error _
    · exact (h.withDraws _).storeHalf a _

theorem AccessesAlike.finishStore {x y : Except Fault State} (h : AccessesAlike (Alike P Q) x y) :
    ResultsAlike (Alike P Q) (finishStore x) (finishStore y) := by
  cases h with
  | ok h => exact h.advance
  | error f => exact .fault f

/-! ### Instructions -/

theorem Alike.compare (hQ : FlagWritesKeep Q) (h : Alike P Q t u) (a b : Word) :
    ResultsAlike (Alike P Q) (compare a b t) (compare a b u) :=
  (h.setNZCV hQ _).advance

theorem Alike.execAsr (hP : LowRegsAgree P) (hQ : FlagWritesKeep Q) (h : Alike P Q t u) (rd rs : LowReg) :
    ResultsAlike (Alike P Q) (execAsr rd rs t) (execAsr rd rs u) := by
  have hw := (h.writeLow hP rd (asrResult (readLow t rd) (shiftAmount (readLow t rs)))).setC_asrCarry hQ
    (readLow t rd) (shiftAmount (readLow t rs))
  simp only [writeLow_def, writeReg_flags] at hw
  simp only [Machine.execAsr, h.readLow_eq hP]
  exact (hw.setNZ hQ _).advance

/-- The instructions outside Format 5, B apart, see of the registers only the low ones, and of the flags none. -/
theorem Alike.exec_of_not_hi (hP : LowRegsAgree P) (hQ : FlagWritesKeep Q) (h : Alike P Q t u) {i : Instr}
    (hi : isHiOperation i = false) (hb : branchOf i = none) : ResultsAlike (Alike P Q) (exec i t) (exec i u) := by
  have hr := h.readLow_eq hP
  cases i with
  | halt => exact .next (h.withHalted true)
  | mov1 rd imm => exact ((h.writeLow hP rd _).setNZ hQ _).advance
  | cmp1 rd imm =>
    simp only [exec, execCmp1, hr]
    exact h.compare hQ _ _
  | and rd rs =>
    simp only [exec, execAnd, hr]
    exact ((h.writeLow hP rd _).setNZ hQ _).advance
  | eor rd rs =>
    simp only [exec, execEor, hr]
    exact ((h.writeLow hP rd _).setNZ hQ _).advance
  | asr rd rs => exact h.execAsr hP hQ rd rs
  | tst rd rs =>
    simp only [exec, execTst, hr]
    exact (h.setNZ hQ _).advance
  | neg rd rs =>
    simp only [exec, execNeg, hr]
    exact ((h.writeLow hP rd _).setNZCV hQ _).advance
  | cmp2 rd rs =>
    simp only [exec, execCmp2, hr]
    exact h.compare hQ _ _
  | str rd rb imm =>
    simp only [exec, execStr, h.effectiveAddress_eq hP, hr]
    split
    · exact .fault _
    · exact (h.storeHalfAligned _ _).finishStore
  | ldr rd rb imm =>
    simp only [exec, execLdr, h.effectiveAddress_eq hP]
    split
    · exact .fault _
    · exact (h.loadHalfAligned _).finishLoad hP rd
  | strb rd rb imm =>
    simp only [exec, execStrb, h.effectiveAddress_eq hP, hr]
    split
    · exact .fault _
    · exact (h.storeByte _ _).finishStore
  | ldrb rd rb imm =>
    simp only [exec, execLdrb, h.effectiveAddress_eq hP]
    split
    · exact .fault _
    · exact (h.loadByteZeroExtended _).finishLoad hP rd
  | add2 rd imm =>
    simp only [exec, execAdd2, pcBase, h.pc_eq]
    exact (h.writeLow hP rd _).advance
  | add1 | cmp3H1 | cmp3H2 | mov2 => cases hi
  | _ => cases hb

/-- The Format 5 instructions see every register and no flag. -/
theorem Alike.exec_of_hi (hQ : FlagWritesKeep Q) (h : Alike Eq Q t u) {i : Instr} (hi : isHiOperation i = true) :
    ResultsAlike (Alike Eq Q) (exec i t) (exec i u) := by
  have hr := h.readReg_eq
  cases i with
  | add1 rd rs =>
    simp only [exec, execAdd1, hr]
    exact ((h.writeReg rd _).setNZCV hQ _).retire rd
  | cmp3H1 rd rs =>
    simp only [exec, execCmp3H1, hr]
    exact h.compare hQ _ _
  | cmp3H2 rd rs =>
    simp only [exec, execCmp3H2, hr]
    exact h.compare hQ _ _
  | mov2 rd rs =>
    simp only [exec, execMov2, hr]
    exact ((h.writeReg rd _).setNZ hQ _).retire rd
  | _ => cases hi

end Lockstep

/-! ### R8 to R14 -/

/-- Register files `x` and `y` that agree in R0 to R7 and hold in R8 to R14 what `a` and `b` hold there. -/
structure HighRegsKept (a b x y : Vector Word 15) : Prop where
  low : ∀ (k : Nat) (_ : k < 15), k < 8 → y[k] = x[k]
  high : ∀ (k : Nat) (_ : k < 15), 8 ≤ k → x[k] = a[k] ∧ y[k] = b[k]

theorem lowRegsAgree_highRegsKept (a b : Vector Word 15) : LowRegsAgree (HighRegsKept a b) where
  read h r := h.low r.val (by omega) r.isLt
  write h r v := by
    refine ⟨fun k hk hlow => ?_, fun k hk hhigh => ?_⟩
    · simp only [Vector.getElem_set, h.low k hk hlow]
    · have hne : r.val ≠ k := by omega
      simpa only [Vector.getElem_set_ne _ _ hne] using h.high k hk hhigh

theorem readReg_of_ne_pc (s : State) {r : Reg} (h : r ≠ Reg.pc) :
    readReg s r = s.regs[r.val]'(reg_lt_of_ne_pc h) := by
  simp [readReg, reg_lt_of_ne_pc h]

/-- States that differ only in R8 to R14 are in lockstep. -/
theorem alike_withRegs {s : State} {regs : Vector Word 15}
    (h : ∀ r : LowReg, readReg (s.withRegs regs) r.toReg = readReg s r.toReg) :
    Alike (HighRegsKept s.regs regs) Eq s (s.withRegs regs) where
  regs := ⟨fun k _ hk => by simpa only [readReg_toReg] using h ⟨k, hk⟩, fun _ _ _ => ⟨rfl, rfl⟩⟩
  flags := rfl
  rest := rfl

theorem exec_alike_highRegsKept {i : Instr} {s : State} {regs : Vector Word 15} (hi : isHiOperation i = false)
    (h : ∀ r : LowReg, readReg (s.withRegs regs) r.toReg = readReg s r.toReg) :
    ResultsAlike (Alike (HighRegsKept s.regs regs) Eq) (exec i s) (exec i (s.withRegs regs)) := by
  cases hb : branchOf i with
  | none => exact (alike_withRegs h).exec_of_not_hi (lowRegsAgree_highRegsKept _ _) flagWritesKeep_eq hi hb
  | some b =>
    simp only [exec_of_branch hb]
    exact (alike_withRegs h).branch _ _

/-- Settles O56: outside Format 5 the two runs stay in lockstep with R8 to R14 as they were. -/
theorem highRegistersOnlyThroughFormat5 : Obligations.HighRegistersOnlyThroughFormat5 := by
  intro i s regs hi hlow
  have h := exec_alike_highRegsKept hi hlow
  generalize exec i s = x, exec i (s.withRegs regs) = y at h ⊢
  cases h with
  | fault f => rfl
  | @next t u h =>
    refine ⟨fun r => ?_, fun r hr hpc => ?_, h.withRegs_eq⟩
    · exact h.readLow_eq (lowRegsAgree_highRegsKept _ _) r
    · simpa only [readReg_of_ne_pc _ hpc, withRegs_regs] using h.regs.high r.val (reg_lt_of_ne_pc hpc) hr

/-! ### The flags -/

/-- Flags `x` and `y` each of which is the same in both, or is in each what it is in `f` and in `g`. -/
structure FlagsSameOrKept (f g x y : Flags) : Prop where
  n : y.n = x.n ∨ (x.n = f.n ∧ y.n = g.n)
  z : y.z = x.z ∨ (x.z = f.z ∧ y.z = g.z)
  c : y.c = x.c ∨ (x.c = f.c ∧ y.c = g.c)
  v : y.v = x.v ∨ (x.v = f.v ∧ y.v = g.v)

theorem flagWritesKeep_flagsSameOrKept (f g : Flags) : FlagWritesKeep (FlagsSameOrKept f g) where
  same _ := ⟨.inl rfl, .inl rfl, .inl rfl, .inl rfl⟩
  writeNZ h _ _ := ⟨.inl rfl, .inl rfl, h.c, h.v⟩
  writeAsrC h a k := by
    refine ⟨h.n, h.z, ?_, h.v⟩
    by_cases hk : k = 0
    · simpa only [asrCarry, if_pos hk] using h.c
    · simp only [asrCarry, if_neg hk, true_or]

/-- States that differ only in the flags are in lockstep. -/
theorem alike_withFlags (s : State) (f : Flags) : Alike Eq (FlagsSameOrKept s.flags f) s (s.withFlags f) :=
  ⟨rfl, ⟨.inr ⟨rfl, rfl⟩, .inr ⟨rfl, rfl⟩, .inr ⟨rfl, rfl⟩, .inr ⟨rfl, rfl⟩⟩, rfl⟩

theorem exec_alike_flagsSameOrKept {i : Instr} (hb : branchOf i = none) (s : State) (f : Flags) :
    ResultsAlike (Alike Eq (FlagsSameOrKept s.flags f)) (exec i s) (exec i (s.withFlags f)) := by
  have hQ := flagWritesKeep_flagsSameOrKept s.flags f
  cases hi : isHiOperation i with
  | false => exact (alike_withFlags s f).exec_of_not_hi lowRegsAgree_eq hQ hi hb
  | true => exact (alike_withFlags s f).exec_of_hi hQ hi

/-- Settles O57: any instruction but B keeps the two runs in lockstep with each flag the same or kept. -/
theorem flagsReadOnlyByBranches : Obligations.FlagsReadOnlyByBranches := by
  intro i s f hb
  have h := exec_alike_flagsSameOrKept hb s f
  generalize exec i s = x, exec i (s.withFlags f) = y at h ⊢
  cases h with
  | fault f => rfl
  | next h => exact ⟨h.withFlags_eq, h.flags.n, h.flags.z, h.flags.c, h.flags.v⟩

end Sys2Proof.Machine
end

section
/-! PROOF. The opcode map (30_encoding.md rule R91): a row's mask covers the fields that select its instruction, and the
row's match says what stands in them. -/

namespace Sys2Proof

/-! ### Fields -/

/-- A field that the mask covers holds in the halfword what it holds in the match. -/
theorem bitsOf_of_mask {w m x : Word} (lo len : Nat) (h : w &&& m = x)
    (hm : m.extractLsb' lo len = BitVec.allOnes len) : bitsOf w lo len = bitsOf x lo len := by
  simp only [bitsOf, ← h, BitVec.extractLsb'_and, hm, BitVec.and_allOnes]

theorem lowField_eq_ofNat (w : Word) (lo : Nat) : lowField w lo = Fin.ofNat 8 (w.toNat / 2 ^ lo) :=
  Fin.ext (lowField_val w lo)

theorem regField_eq_ofNat (w : Word) (h lo : Nat) :
    regField w h lo = Fin.ofNat 16 (w.toNat / 2 ^ h % 2 * 8 + w.toNat / 2 ^ lo % 8) := by
  apply Fin.ext
  rw [regField_val, Fin.val_ofNat]
  omega

theorem field8_eq_ofNat (w : Word) : field8 w = BitVec.ofNat 8 w.toNat :=
  BitVec.eq_of_toNat_eq (field8_toNat w)

theorem field5_eq_ofNat (w : Word) : field5 w = BitVec.ofNat 5 (w.toNat / 64) :=
  BitVec.eq_of_toNat_eq (field5_toNat w)

/-! ### The format that bits 15:13 select -/

section
variable {w : Word}

theorem decodeHalfword_eq_format0 (h : bitsOf w 13 3 = 0) : decodeHalfword w = decodeFormat0 w := by
  simp only [decodeHalfword, h]

theorem decodeHalfword_eq_format3 (h : bitsOf w 13 3 = 1) : decodeHalfword w = decodeFormat3 w := by
  simp only [decodeHalfword, h]

theorem decodeHalfword_eq_format4 (h : bitsOf w 13 3 = 2) (h11 : bitsOf w 11 2 = 0) (h10 : bitsOf w 10 1 = 0) :
    decodeHalfword w = decodeFormat4 w := by
  simp only [decodeHalfword, h, if_pos h11, if_pos h10]

theorem decodeHalfword_eq_format5 (h : bitsOf w 13 3 = 2) (h11 : bitsOf w 11 2 = 0) (h10 : bitsOf w 10 1 = 1) :
    decodeHalfword w = decodeFormat5 w := by
  simp only [decodeHalfword, h, if_pos h11, h10, if_neg Nat.one_ne_zero]

theorem decodeHalfword_eq_format9 (h : bitsOf w 13 3 = 3) : decodeHalfword w = decodeFormat9 w := by
  simp only [decodeHalfword, h]

theorem decodeHalfword_eq_format12 (h : bitsOf w 13 3 = 5) : decodeHalfword w = decodeFormat12 w := by
  simp only [decodeHalfword, h]

theorem decodeHalfword_eq_cond (h : bitsOf w 13 3 = 6) (h12 : bitsOf w 12 1 = 1) :
    decodeHalfword w = decodeCond (bitsOf w 8 4) (field8 w) := by
  simp only [decodeHalfword, h, decodeFormat16, if_pos h12]

end

/-! ### The map -/

/-- Settles O2: the masked bits select the format, then the row within it. -/
theorem decodeFollowsOpcodeMap : Obligations.DecodeFollowsOpcodeMap := by
  intro w low d g i8 i5
  have hlow (k : Nat) : low k = lowField w k := (lowField_eq_ofNat w k).symm
  have hd : d = regField w 7 0 := by simp only [regField_eq_ofNat, d, Nat.pow_zero, Nat.div_one, Nat.reducePow]
  have hg : g = regField w 6 3 := (regField_eq_ofNat w 6 3).symm
  have hi8 : i8 = field8 w := (field8_eq_ofNat w).symm
  have hi5 : i5 = field5 w := (field5_eq_ofNat w).symm
  simp only [hlow, hd, hg, hi8, hi5]
  refine ⟨fun h => ?halt, fun h => ?mov1, fun h => ?cmp1, fun h => ?and, fun h => ?eor, fun h => ?asr, fun h => ?tst,
    fun h => ?neg, fun h => ?cmp2, fun h => ?add1, fun h => ?cmp3H1, fun h => ?cmp3H2, fun h => ?mov2, fun h => ?str,
    fun h => ?ldr, fun h => ?strb, fun h => ?ldrb, fun h => ?add2, fun h => ?beq, fun h => ?bne, fun h => ?bcs,
    fun h => ?bcc, fun h => ?bmi, fun h => ?bpl, fun h => ?bvs, fun h => ?bvc, fun h => ?bhi, fun h => ?bls,
    fun h => ?bge, fun h => ?blt, fun h => ?bgt, fun h => ?ble⟩
  case halt =>
    rw [decodeHalfword_eq_format0 (bitsOf_of_mask 13 3 h rfl), decodeFormat0, bitsOf_of_mask 8 5 h rfl,
      bitsOf_of_mask 0 8 h rfl]
    rfl
  case mov1 | cmp1 =>
    rw [decodeHalfword_eq_format3 (bitsOf_of_mask 13 3 h rfl), decodeFormat3, bitsOf_of_mask 11 2 h rfl]
    rfl
  case and | eor | asr | tst | neg | cmp2 =>
    rw [decodeHalfword_eq_format4 (bitsOf_of_mask 13 3 h rfl) (bitsOf_of_mask 11 2 h rfl) (bitsOf_of_mask 10 1 h rfl),
      decodeFormat4, bitsOf_of_mask 6 4 h rfl]
    rfl
  case add1 | mov2 =>
    rw [decodeHalfword_eq_format5 (bitsOf_of_mask 13 3 h rfl) (bitsOf_of_mask 11 2 h rfl) (bitsOf_of_mask 10 1 h rfl),
      decodeFormat5, bitsOf_of_mask 8 2 h rfl]
    rfl
  case cmp3H1 =>
    rw [decodeHalfword_eq_format5 (bitsOf_of_mask 13 3 h rfl) (bitsOf_of_mask 11 2 h rfl) (bitsOf_of_mask 10 1 h rfl),
      decodeFormat5, bitsOf_of_mask 8 2 h rfl, bitsOf_of_mask 7 1 h rfl]
    rfl
  case cmp3H2 =>
    rw [decodeHalfword_eq_format5 (bitsOf_of_mask 13 3 h rfl) (bitsOf_of_mask 11 2 h rfl) (bitsOf_of_mask 10 1 h rfl),
      decodeFormat5, bitsOf_of_mask 8 2 h rfl, bitsOf_of_mask 7 1 h rfl, bitsOf_of_mask 6 1 h rfl]
    rfl
  case str | ldr | strb | ldrb =>
    rw [decodeHalfword_eq_format9 (bitsOf_of_mask 13 3 h rfl), decodeFormat9, bitsOf_of_mask 11 2 h rfl]
    rfl
  case add2 =>
    rw [decodeHalfword_eq_format12 (bitsOf_of_mask 13 3 h rfl), decodeFormat12, bitsOf_of_mask 11 2 h rfl]
    rfl
  case beq | bne | bcs | bcc | bmi | bpl | bvs | bvc | bhi | bls | bge | blt | bgt | ble =>
    rw [decodeHalfword_eq_cond (bitsOf_of_mask 13 3 h rfl) (bitsOf_of_mask 12 1 h rfl), bitsOf_of_mask 8 4 h rfl]
    rfl

end Sys2Proof
end

section
/-! PROOF. Data processing over low registers (40_data_processing.md): ADD(2), AND, EOR, TST, CMP(1), CMP(2), MOV(1)
and NEG.  Each writes at most one low register and the flags, then advances the PC. -/

namespace Sys2Proof.Machine

/-! ### The frame of a register write, a flag write and the advance of the PC -/

theorem keepsAllBut_refl (ds : List Reg) (s : State) : keepsAllBut ds s s :=
  ⟨fun _ _ _ => rfl, ⟨fun _ => rfl, rfl, rfl, rfl⟩, ⟨rfl, rfl⟩, rfl, rfl⟩

theorem keepsAllBut_writeReg (s : State) (d : Reg) (v : Word) : keepsAllBut [d] s (writeReg s d v) := by
  refine ⟨fun r hr _ => readReg_writeReg_of_ne s v (List.ne_of_not_mem_cons hr), ?_, ?_, ?_, ?_⟩ <;>
    simp [keepsMemory, keepsFixed]

theorem keepsAllBut_withFlags {ds : List Reg} {s t : State} (h : keepsAllBut ds s t) (f : Flags) :
    keepsAllBut ds s (t.withFlags f) := h

theorem keepsAllBut_withPc {ds : List Reg} {s t : State} (h : keepsAllBut ds s t) (a : Word) :
    keepsAllBut ds s (t.withPc a) := by
  obtain ⟨hregs, hrest⟩ := h
  exact ⟨fun r hr hpc => (readReg_withPc_of_ne t a hpc).trans (hregs r hr hpc), hrest⟩

/-- Where the writes of an instruction keep the PC and the parameters, the instruction ends by advancing the PC, and
the advance keeps registers, flags and the frame. -/
theorem advance_of_keepsAllBut {ds : List Reg} {s u : State} (h : nextInRange s) (hpc : u.pc = s.pc)
    (hk : keepsAllBut ds s u) :
    ∃ t, advance u = .next t ∧ t.flags = u.flags ∧ (∀ r : LowReg, readReg t r.toReg = readReg u r.toReg) ∧
      t.pc = s.pc + 2#16 ∧ keepsAllBut ds s t := by
  have hu : nextInRange u := by
    obtain ⟨-, -, ⟨-, hparams⟩, -⟩ := hk
    simpa only [nextInRange, hparams, hpc] using h
  refine ⟨_, advance_of_inRange hu, rfl, fun r => ?_, ?_, keepsAllBut_withPc hk _⟩
  · exact readReg_withPc_of_ne u _ (toReg_ne_pc r)
  · rw [withPc_pc, hpc]

/-! ### Flags -/

theorem flagsShowNZ_of_flags_eq {t u : State} {r : Word} (h : t.flags = (setNZ u r).flags) : flagsShowNZ t r := by
  simp [flagsShowNZ, h]

theorem flagsShowSub_of_flags_eq {t u : State} {a b : Word} (h : t.flags = (setNZCV u (subFlags a b)).flags) :
    flagsShowSub t a b := by
  simp [flagsShowSub, flagsShowNZ, h, subFlags_r, subFlags_c, subFlags_v, signedOverflow_iff]

/-- Zero minus a halfword borrows unless the halfword is 0. -/
theorem no_borrow_from_zero_iff (b : Word) : b.toNat ≤ (0#16).toNat ↔ b = 0#16 := by
  rw [← BitVec.toNat_inj]
  exact Nat.le_zero

/-- Zero minus a halfword overflows for the least signed halfword alone. -/
theorem overflow_from_zero_iff (b : Word) :
    (0#16).toInt - b.toInt < -32768 ∨ 32767 < (0#16).toInt - b.toInt ↔ b = 0x8000#16 := by
  rw [← BitVec.toInt_inj, show (0#16).toInt = 0 from rfl, show (0x8000#16).toInt = -32768 from rfl]
  have hge : -32768 ≤ b.toInt := by simpa using b.le_toInt
  have hlt : b.toInt < 32768 := by simpa using b.toInt_lt
  omega

/-! ### Operands -/

theorem immediate8_eq_ofNat (imm : BitVec 8) : immediate8 imm = BitVec.ofNat 16 imm.toNat :=
  BitVec.eq_of_toNat_eq (by simp [immediate8])

theorem immediate8_toNat (imm : BitVec 8) : (immediate8 imm).toNat = imm.toNat :=
  BitVec.toNat_setWidth_of_le (by decide)

theorem immediate8Scaled_toNat (imm : BitVec 8) : (immediate8Scaled imm).toNat = 4 * imm.toNat := by
  have := imm.isLt
  rw [immediate8Scaled, BitVec.toNat_shiftLeft, immediate8_toNat, Nat.shiftLeft_eq]
  omega

/-- ADD(2)'s base is the PC rounded down to a multiple of 4 (40_data_processing.md rule R111). -/
theorem pcBase_toNat (s : State) : (pcBase s).toNat = s.pc.toNat / 4 * 4 := by
  have hmask : pcBase s = s.pc >>> 2 <<< 2 := (BitVec.shiftLeft_ushiftRight (x := s.pc) (n := 2)).symm
  have := s.pc.isLt
  rw [hmask, BitVec.toNat_shiftLeft, BitVec.toNat_ushiftRight, Nat.shiftLeft_eq, Nat.shiftRight_eq_div_pow]
  omega

/-! ### Instructions of one shape -/

section
variable {s : State}

/-- N and Z from `v`, after writes that keep the flags: AND, EOR, TST, MOV(1). -/
theorem advance_setNZ {ds : List Reg} {u : State} (h : nextInRange s) (hpc : u.pc = s.pc) (hf : u.flags = s.flags)
    (hk : keepsAllBut ds s u) (v : Word) :
    ∃ t, advance (setNZ u v) = .next t ∧ (∀ r : LowReg, readReg t r.toReg = readReg u r.toReg) ∧ flagsShowNZ t v ∧
      keepsCV s t ∧ t.pc = s.pc + 2#16 ∧ keepsAllBut ds s t := by
  obtain ⟨t, ht, hft, hr, hpct, hkt⟩ := advance_of_keepsAllBut (u := setNZ u v) h hpc (keepsAllBut_withFlags hk _)
  exact ⟨t, ht, hr, flagsShowNZ_of_flags_eq hft, by simp [keepsCV, hft, hf], hpct, hkt⟩

/-- A value into a low register, N and Z from it: AND, EOR, MOV(1). -/
theorem advance_setNZ_writeLow (h : nextInRange s) (rd : LowReg) (v : Word) :
    ∃ t, advance (setNZ (writeLow s rd v) v) = .next t ∧ readReg t rd.toReg = v ∧ flagsShowNZ t v ∧ keepsCV s t ∧
      t.pc = s.pc + 2#16 ∧ keepsAllBut [rd.toReg] s t := by
  obtain ⟨t, ht, hr, hrest⟩ :=
    advance_setNZ (u := writeLow s rd v) h (by simp) (by simp) (keepsAllBut_writeReg s rd.toReg v) v
  exact ⟨t, ht, (hr rd).trans (readReg_writeReg_self s rd.toReg v), hrest⟩

/-- All four flags from `a - b`, after writes: CMP and NEG. -/
theorem advance_setNZCV_subFlags {ds : List Reg} {u : State} (h : nextInRange s) (hpc : u.pc = s.pc)
    (hk : keepsAllBut ds s u) (a b : Word) :
    ∃ t, advance (setNZCV u (subFlags a b)) = .next t ∧ (∀ r : LowReg, readReg t r.toReg = readReg u r.toReg) ∧
      flagsShowSub t a b ∧ t.pc = s.pc + 2#16 ∧ keepsAllBut ds s t := by
  obtain ⟨t, ht, hft, hr, hpct, hkt⟩ :=
    advance_of_keepsAllBut (u := setNZCV u (subFlags a b)) h hpc (keepsAllBut_withFlags hk _)
  exact ⟨t, ht, hr, flagsShowSub_of_flags_eq hft, hpct, hkt⟩

/-- The flags of a difference, no register: the three forms of CMP. -/
theorem compare_of_inRange (h : nextInRange s) (a b : Word) :
    ∃ t, compare a b s = .next t ∧ flagsShowSub t a b ∧ t.pc = s.pc + 2#16 ∧ keepsAllBut [] s t := by
  obtain ⟨t, ht, -, hrest⟩ := advance_setNZCV_subFlags h rfl (keepsAllBut_refl [] s) a b
  exact ⟨t, ht, hrest⟩

end

/-! ### The statements -/

/-- Settles O18: the base and the scaled immediate as numbers, and a frame without a flag write. -/
theorem add2Result : Obligations.Add2Result := by
  intro rd imm s
  refine ⟨?encoding, fun h => ?result⟩
  case encoding =>
    rw [encode, encodeFormat12_toNat]
    omega
  case result =>
    obtain ⟨t, ht, hf, hr, hpc, hk⟩ := advance_of_keepsAllBut h
      (u := writeLow s rd (pcBase s + immediate8Scaled imm)) (by simp) (keepsAllBut_writeReg s rd.toReg _)
    refine ⟨t, ht, ?_, by simp [hf], hpc, hk⟩
    rw [hr, writeLow_def, readReg_writeReg_self, BitVec.toNat_add, pcBase_toNat, immediate8Scaled_toNat]

/-- Settles O19: a Format 4 encoding, and a register write with N and Z. -/
theorem andResult : Obligations.AndResult := by
  intro rd rs s
  refine ⟨?encoding, fun h => advance_setNZ_writeLow h rd _⟩
  case encoding =>
    rw [encode, encodeFormat4_toNat, BitVec.toNat_ofNat]
    omega

/-- Settles O20: a Format 4 encoding, and a register write with N and Z. -/
theorem eorResult : Obligations.EorResult := by
  intro rd rs s
  refine ⟨?encoding, fun h => advance_setNZ_writeLow h rd _⟩
  case encoding =>
    rw [encode, encodeFormat4_toNat, BitVec.toNat_ofNat]
    omega

/-- Settles O21: N and Z are written over the state as it was. -/
theorem tstResult : Obligations.TstResult := by
  intro rd rs s
  refine ⟨?encoding, fun h => ?result⟩
  case encoding =>
    rw [encode, encodeFormat4_toNat, BitVec.toNat_ofNat]
    omega
  case result =>
    obtain ⟨t, ht, -, hrest⟩ := advance_setNZ h rfl rfl (keepsAllBut_refl [] s) _
    exact ⟨t, ht, hrest⟩

/-- Settles O24: a comparison with the zero-extended immediate. -/
theorem cmp1Result : Obligations.Cmp1Result := by
  intro rd imm s
  refine ⟨?encoding, fun h => ?result⟩
  case encoding =>
    rw [encode, encodeFormat3_toNat, BitVec.toNat_ofNat]
    omega
  case result =>
    rw [← immediate8_eq_ofNat]
    exact compare_of_inRange h _ _

/-- Settles O25: a comparison of two registers. -/
theorem cmp2Result : Obligations.Cmp2Result := by
  intro rd rs s
  refine ⟨?encoding, fun h => compare_of_inRange h _ _⟩
  case encoding =>
    rw [encode, encodeFormat4_toNat, BitVec.toNat_ofNat]
    omega

/-- Settles O27: a register write with N and Z, of a value below 256. -/
theorem mov1Result : Obligations.Mov1Result := by
  intro rd imm s
  refine ⟨?encoding, fun h => ?result⟩
  case encoding =>
    rw [encode, encodeFormat3_toNat, BitVec.toNat_ofNat]
    omega
  case result =>
    obtain ⟨t, ht, hr, ⟨hn, hz⟩, hcv, hpc, hk⟩ := advance_setNZ_writeLow h rd (immediate8 imm)
    refine ⟨t, ht, ?_, ?_, ?_, hcv, hpc, hk⟩
    · rw [hr, immediate8_toNat]
    · simp [hn, immediate8]
    · rw [hz, ← BitVec.toNat_inj, immediate8_toNat]
      rfl

/-- Settles O29: the flags of `0 - Rs`, where no borrow and overflow each come down to one value of Rs. -/
theorem negResult : Obligations.NegResult := by
  intro rd rs s
  refine ⟨?encoding, fun h => ?result⟩
  case encoding =>
    rw [encode, encodeFormat4_toNat, BitVec.toNat_ofNat]
    omega
  case result =>
    obtain ⟨t, ht, hr, ⟨hnz, hc, hv⟩, hrest⟩ :=
      advance_setNZCV_subFlags (u := writeLow s rd (subFlags 0#16 (readLow s rs)).r) h (by simp)
        (keepsAllBut_writeReg s rd.toReg _) 0#16 (readLow s rs)
    refine ⟨t, ht, ?_, hnz, ?_, ?_, hrest⟩
    · rw [hr, writeLow_def, readReg_writeReg_self, subFlags_r, readLow_def]
    · exact hc.trans (no_borrow_from_zero_iff _)
    · exact hv.trans (overflow_from_zero_iff _)

end Sys2Proof.Machine
end

section
/-! PROOF. Loads from storage (41_load_store.md): the byte at base plus offset into a low register, every flag kept. -/

namespace Sys2Proof.Machine

/-- A byte of storage is read zero-extended, and the read changes nothing (41_load_store.md rule R145). -/
theorem loadByteZeroExtended_of_storage {s : State} {a : Word} {b : Byte} (h : isStorageByte s a)
    (hm : memRead s.mem a.toNat = some b) : loadByteZeroExtended s a = .ok (b.setWidth 16, s) := by
  rw [loadByteZeroExtended, loadByte_of_storage h hm]

/-- A load whose access changes nothing: the value into the destination, no flag, the PC advanced. -/
theorem finishLoad_of_inRange {s : State} (h : nextInRange s) (rd : LowReg) (v : Word) :
    ∃ t, finishLoad rd (.ok (v, s)) = .next t ∧ readReg t rd.toReg = v ∧ t.flags = s.flags ∧
      t.pc = s.pc + 2#16 ∧ keepsAllBut [rd.toReg] s t := by
  obtain ⟨t, ht, hf, hr, hrest⟩ := advance_of_keepsAllBut (u := writeLow s rd v) h (by simp)
    (keepsAllBut_writeReg s rd.toReg v)
  refine ⟨t, ht, ?_, ?_, hrest⟩
  · rw [hr, writeLow_def, readReg_writeReg_self]
  · rw [hf, writeLow_def, writeReg_flags]

/-- Settles O33: the address is the sum base plus offset, and the byte there fits its register. -/
theorem ldrbResult : Obligations.LdrbResult := by
  intro rd rb imm s a b
  refine ⟨?encoding, fun haddr hnext ha hstorage hmem => ?result⟩
  case encoding =>
    rw [encode, encodeFormat9_toNat, BitVec.toNat_ofNat]
    omega
  case result =>
    have hexec : exec (.ldrb rd rb imm) s = finishLoad rd (.ok (b.setWidth 16, s)) := by
      rw [exec, execLdrb, byteOffset, effectiveAddress_of_inRange haddr, ofNat_toNat_add, ← ha]
      exact congrArg (finishLoad rd) (loadByteZeroExtended_of_storage hstorage hmem)
    obtain ⟨t, ht, hr, hrest⟩ := finishLoad_of_inRange hnext rd (b.setWidth 16)
    refine ⟨t, hexec.trans ht, ?_, hrest⟩
    rw [hr, BitVec.toNat_setWidth_of_le (by decide)]

end Sys2Proof.Machine
end

section
/-! PROOF. Reset (70_reset_and_hazards.md rule R190): where execution starts, whatever the loader placed there. -/

namespace Sys2Proof.Machine

/-- Where no store has marked anything, as at reset, no halfword counts as modified code. -/
theorem isModifiedCode_of_stored_nil {s : State} (h : s.stored = []) (a : Word) : isModifiedCode s a = false := by
  simp [isModifiedCode, h]

/-- The halfword at an even PC is fetched when no store has modified it, under either `FETCH_SEES_STORES`. -/
theorem fetch_of_unmodified {s : State} {lo hi : Byte} (he : s.pc.toNat % 2 = 0) (hs : isStorageHalf s s.pc)
    (hlo : memRead s.mem s.pc.toNat = some lo) (hhi : memRead s.mem (s.pc.toNat + 1) = some hi)
    (hm : isModifiedCode s s.pc = false) : fetch s = .ok (hi ++ lo) := by
  rw [fetch_of_storage he hs hlo hhi, hm, Bool.and_false, if_neg Bool.false_ne_true]

/-- Settles O6: reset clears the marks that could stop a fetch, so the two bytes at its PC 0 are fetched. -/
theorem resetRunsAddressZero : Obligations.ResetRunsAddressZero := by
  refine ⟨rfl, rfl, ?_⟩
  intro r f m p lo hi s hstorage hlo hhi
  have hfetch : fetch s = .ok (hi ++ lo) :=
    fetch_of_unmodified rfl hstorage hlo hhi (isModifiedCode_of_stored_nil rfl s.pc)
  exact ⟨hfetch, fun i hdecode => step_of_fetch rfl hfetch hdecode⟩

end Sys2Proof.Machine
end

section
/-! PROOF. Decoding and encoding (30_encoding.md): each is the other's inverse on well-formed instructions, and the
halfwords that decode to nothing are those of rule R92, reason by reason. -/

namespace Sys2Proof

/-! ### The fields of an encoded halfword -/

section
variable {w : Word}

theorem lowField_eq_iff {lo : Nat} {r : LowReg} : lowField w lo = r ↔ w.toNat / 2 ^ lo % 8 = r.val := by
  rw [Fin.ext_iff, lowField_val]

theorem regField_eq_iff {h lo : Nat} {r : Reg} :
    regField w h lo = r ↔ w.toNat / 2 ^ h % 2 * 8 + w.toNat / 2 ^ lo % 8 = r.val := by
  rw [Fin.ext_iff, regField_val]

theorem field8_eq_iff {x : BitVec 8} : field8 w = x ↔ w.toNat % 256 = x.toNat := by
  rw [← BitVec.toNat_inj, field8_toNat]

theorem field5_eq_iff {x : BitVec 5} : field5 w = x ↔ w.toNat / 64 % 32 = x.toNat := by
  rw [← BitVec.toNat_inj, field5_toNat]

end

theorem encodeFormat3_fields (op : BitVec 2) (rd : LowReg) (imm : BitVec 8) :
    bitsOf (encodeFormat3 op rd imm) 13 3 = 1 ∧ bitsOf (encodeFormat3 op rd imm) 11 2 = op.toNat ∧
      lowField (encodeFormat3 op rd imm) 8 = rd ∧ field8 (encodeFormat3 op rd imm) = imm := by
  simp only [bitsOf_eq, lowField_eq_iff, field8_eq_iff, encodeFormat3_toNat]
  omega

theorem encodeFormat4_fields (op : BitVec 4) (rd rs : LowReg) :
    bitsOf (encodeFormat4 op rd rs) 13 3 = 2 ∧ bitsOf (encodeFormat4 op rd rs) 11 2 = 0 ∧
      bitsOf (encodeFormat4 op rd rs) 10 1 = 0 ∧ bitsOf (encodeFormat4 op rd rs) 6 4 = op.toNat ∧
      lowField (encodeFormat4 op rd rs) 0 = rd ∧ lowField (encodeFormat4 op rd rs) 3 = rs := by
  simp only [bitsOf_eq, lowField_eq_iff, encodeFormat4_toNat]
  omega

theorem encodeFormat5_upper (op : BitVec 2) (rd rs : Reg) :
    (encodeFormat5 op rd rs).toNat / 256 = 68 + op.toNat := by
  rw [encodeFormat5_toNat]
  omega

theorem encodeFormat5_fields (op : BitVec 2) (rd rs : Reg) :
    bitsOf (encodeFormat5 op rd rs) 13 3 = 2 ∧ bitsOf (encodeFormat5 op rd rs) 11 2 = 0 ∧
      bitsOf (encodeFormat5 op rd rs) 10 1 = 1 ∧ bitsOf (encodeFormat5 op rd rs) 8 2 = op.toNat ∧
      bitsOf (encodeFormat5 op rd rs) 7 1 = rd.val / 8 ∧ bitsOf (encodeFormat5 op rd rs) 6 1 = rs.val / 8 ∧
      regField (encodeFormat5 op rd rs) 7 0 = rd ∧ regField (encodeFormat5 op rd rs) 6 3 = rs := by
  have hupper := encodeFormat5_upper op rd rs
  simp only [bitsOf_eq, regField_eq_iff]
  refine ⟨by omega, by omega, by omega, by omega, ?_⟩
  rw [encodeFormat5_toNat]
  omega

theorem encodeFormat9_fields (b l : BitVec 1) (rd rb : LowReg) (imm : BitVec 5) :
    bitsOf (encodeFormat9 b l rd rb imm) 13 3 = 3 ∧
      bitsOf (encodeFormat9 b l rd rb imm) 11 2 = 2 * b.toNat + l.toNat ∧
      lowField (encodeFormat9 b l rd rb imm) 0 = rd ∧ lowField (encodeFormat9 b l rd rb imm) 3 = rb ∧
      field5 (encodeFormat9 b l rd rb imm) = imm := by
  simp only [bitsOf_eq, lowField_eq_iff, field5_eq_iff, encodeFormat9_toNat]
  omega

theorem encodeFormat12_fields (rd : LowReg) (imm : BitVec 8) :
    bitsOf (encodeFormat12 rd imm) 13 3 = 5 ∧ bitsOf (encodeFormat12 rd imm) 11 2 = 0 ∧
      lowField (encodeFormat12 rd imm) 8 = rd ∧ field8 (encodeFormat12 rd imm) = imm := by
  simp only [bitsOf_eq, lowField_eq_iff, field8_eq_iff, encodeFormat12_toNat]
  omega

theorem encodeFormat16_fields (cond : BitVec 4) (off : BitVec 8) :
    bitsOf (encodeFormat16 cond off) 13 3 = 6 ∧ bitsOf (encodeFormat16 cond off) 12 1 = 1 ∧
      bitsOf (encodeFormat16 cond off) 8 4 = cond.toNat ∧ field8 (encodeFormat16 cond off) = off := by
  simp only [bitsOf_eq, field8_eq_iff, encodeFormat16_toNat]
  omega

/-! ### Decode of encode -/

/-- Settles O3: the encoder's fields select the instruction's format, its row and its operands. -/
theorem decodeOfEncodeIsIdentity : Obligations.DecodeOfEncodeIsIdentity := by
  intro i hwf
  cases i with
  | halt => rfl
  | mov1 rd imm | cmp1 rd imm =>
    obtain ⟨hf, hop, hd, hi⟩ := encodeFormat3_fields _ rd imm
    rw [encode, decodeHalfword_eq_format3 hf, decodeFormat3, hop, hd, hi]
    rfl
  | and rd rs | eor rd rs | asr rd rs | tst rd rs | neg rd rs | cmp2 rd rs =>
    obtain ⟨hf, h11, h10, hop, hd, hs⟩ := encodeFormat4_fields _ rd rs
    rw [encode, decodeHalfword_eq_format4 hf h11 h10, decodeFormat4, hop, hd, hs]
    rfl
  | add1 rd rs | mov2 rd rs =>
    obtain ⟨hf, h11, h10, hop, -, -, hd, hs⟩ := encodeFormat5_fields _ rd rs
    rw [encode, decodeHalfword_eq_format5 hf h11 h10, decodeFormat5, hop, hd, hs]
    rfl
  | cmp3H1 rd rs =>
    have hhigh : rd.val / 8 = 1 := by simp only [Instr.wellFormed, decide_eq_true_eq] at hwf; omega
    obtain ⟨hf, h11, h10, hop, h7, -, hd, hs⟩ := encodeFormat5_fields 1#2 rd rs
    rw [encode, decodeHalfword_eq_format5 hf h11 h10, decodeFormat5, hop, h7, hhigh, hd, hs]
    rfl
  | cmp3H2 rd rs =>
    have hlow : rd.val / 8 = 0 ∧ rs.val / 8 = 1 := by
      simp only [Instr.wellFormed, Bool.and_eq_true, decide_eq_true_eq] at hwf
      omega
    obtain ⟨hf, h11, h10, hop, h7, h6, hd, hs⟩ := encodeFormat5_fields 1#2 rd rs
    rw [encode, decodeHalfword_eq_format5 hf h11 h10, decodeFormat5, hop, h7, h6, hlow.1, hlow.2, hd, hs]
    rfl
  | str rd rb imm | ldr rd rb imm | strb rd rb imm | ldrb rd rb imm =>
    obtain ⟨hf, hop, hd, hb, hi⟩ := encodeFormat9_fields _ _ rd rb imm
    rw [encode, decodeHalfword_eq_format9 hf, decodeFormat9, hop, hd, hb, hi]
    rfl
  | add2 rd imm =>
    obtain ⟨hf, hop, hd, hi⟩ := encodeFormat12_fields rd imm
    rw [encode, decodeHalfword_eq_format12 hf, decodeFormat12, hop, hd, hi]
    rfl
  | beq off | bne off | bcs off | bcc off | bmi off | bpl off | bvs off | bvc off | bhi off | bls off | bge off
  | blt off | bgt off | ble off =>
    obtain ⟨hf, h12, hcond, hoff⟩ := encodeFormat16_fields _ off
    rw [encode, decodeHalfword_eq_cond hf h12, hcond, hoff]
    rfl

/-! ### Encode of decode -/

/-- `i` is the one instruction that the halfword `w` stands for. -/
def StandsFor (w : Word) (i : Instr) : Prop := i.wellFormed = true ∧ encode i = w

section
variable {w : Word} {i : Instr}

/-- A well-formed instruction whose encoding is the same number as the halfword. -/
theorem standsFor_of_toNat_eq (hwf : i.wellFormed = true) (h : (encode i).toNat = w.toNat) : StandsFor w i :=
  ⟨hwf, BitVec.eq_of_toNat_eq h⟩

theorem standsFor_of_decodeFormat0 (hf : bitsOf w 13 3 = 0) (h : decodeFormat0 w = .ok i) : StandsFor w i := by
  unfold decodeFormat0 at h
  simp only [bitsOf_eq] at hf h
  split at h
  · cases h
  · split at h
    · cases h
    · cases h
      exact standsFor_of_toNat_eq rfl (by simp only [encode, BitVec.toNat_ofNat]; omega)

theorem standsFor_of_decodeFormat3 (hf : bitsOf w 13 3 = 1) (h : decodeFormat3 w = .ok i) : StandsFor w i := by
  unfold decodeFormat3 at h
  split at h <;> cases h
  all_goals
    refine standsFor_of_toNat_eq rfl ?_
    simp only [bitsOf_eq] at *
    simp only [encode, encodeFormat3_toNat, lowField_val, field8_toNat, BitVec.toNat_ofNat]
    omega

theorem standsFor_of_decodeFormat4 (hf : bitsOf w 13 3 = 2) (h11 : bitsOf w 11 2 = 0) (h10 : bitsOf w 10 1 = 0)
    (h : decodeFormat4 w = .ok i) : StandsFor w i := by
  unfold decodeFormat4 at h
  split at h <;> cases h
  all_goals
    refine standsFor_of_toNat_eq rfl ?_
    simp only [bitsOf_eq] at *
    simp only [encode, encodeFormat4_toNat, lowField_val, BitVec.toNat_ofNat]
    omega

/-- Bits 15:10 of Format 5, its OP field and its two register numbers make up the halfword. -/
theorem encodeFormat5_regFields {op : BitVec 2} (hf : bitsOf w 13 3 = 2) (h11 : bitsOf w 11 2 = 0)
    (h10 : bitsOf w 10 1 ≠ 0) (hop : bitsOf w 8 2 = op.toNat) :
    (encodeFormat5 op (regField w 7 0) (regField w 6 3)).toNat = w.toNat := by
  simp only [bitsOf_eq] at *
  simp only [encodeFormat5_toNat, regField_val]
  omega

theorem standsFor_of_decodeFormat5 (hf : bitsOf w 13 3 = 2) (h11 : bitsOf w 11 2 = 0) (h10 : bitsOf w 10 1 ≠ 0)
    (h : decodeFormat5 w = .ok i) : StandsFor w i := by
  unfold decodeFormat5 at h
  split at h
  · next hop =>
    cases h
    exact standsFor_of_toNat_eq rfl (encodeFormat5_regFields hf h11 h10 hop)
  · next hop =>
    split at h
    · next h7 =>
      cases h
      refine standsFor_of_toNat_eq ?_ (encodeFormat5_regFields hf h11 h10 hop)
      simp only [bitsOf_eq] at h7
      simp only [Instr.wellFormed, regField_val, decide_eq_true_eq]
      omega
    · next h7 =>
      split at h
      · next h6 =>
        cases h
        refine standsFor_of_toNat_eq ?_ (encodeFormat5_regFields hf h11 h10 hop)
        simp only [bitsOf_eq] at h7 h6
        simp only [Instr.wellFormed, regField_val, Bool.and_eq_true, decide_eq_true_eq]
        omega
      · cases h
  · next hop =>
    cases h
    exact standsFor_of_toNat_eq rfl (encodeFormat5_regFields hf h11 h10 hop)
  · cases h

theorem standsFor_of_decodeFormat9 (hf : bitsOf w 13 3 = 3) (h : decodeFormat9 w = .ok i) : StandsFor w i := by
  unfold decodeFormat9 at h
  split at h <;> cases h
  all_goals
    refine standsFor_of_toNat_eq rfl ?_
    simp only [bitsOf_eq, imp_false] at *
    simp only [encode, encodeFormat9_toNat, lowField_val, field5_toNat, BitVec.toNat_ofNat]
    omega

theorem standsFor_of_decodeFormat12 (hf : bitsOf w 13 3 = 5) (h : decodeFormat12 w = .ok i) : StandsFor w i := by
  unfold decodeFormat12 at h
  split at h <;> cases h
  refine standsFor_of_toNat_eq rfl ?_
  simp only [bitsOf_eq] at *
  simp only [encode, encodeFormat12_toNat, lowField_val, field8_toNat]
  omega

theorem standsFor_of_decodeFormat16 (hf : bitsOf w 13 3 = 6) (h : decodeFormat16 w = .ok i) : StandsFor w i := by
  unfold decodeFormat16 decodeCond at h
  split at h
  · split at h <;> cases h
    all_goals
      refine standsFor_of_toNat_eq rfl ?_
      simp only [bitsOf_eq] at *
      simp only [encode, encodeFormat16_toNat, field8_toNat, BitVec.toNat_ofNat]
      omega
  · cases h

theorem standsFor_of_decodeHalfword (h : decodeHalfword w = .ok i) : StandsFor w i := by
  unfold decodeHalfword at h
  split at h
  · next hf => exact standsFor_of_decodeFormat0 hf h
  · next hf => exact standsFor_of_decodeFormat3 hf h
  · next hf =>
    split at h
    · next h11 =>
      split at h
      · next h10 => exact standsFor_of_decodeFormat4 hf h11 h10 h
      · next h10 => exact standsFor_of_decodeFormat5 hf h11 h10 h
    · cases h
  · next hf => exact standsFor_of_decodeFormat9 hf h
  · next hf => exact standsFor_of_decodeFormat12 hf h
  · next hf => exact standsFor_of_decodeFormat16 hf h
  · cases h

end

/-- Settles O4: in each format, the fields that were read and the bits that selected the row make up the halfword. -/
theorem encodeOfDecodeIsIdentity : Obligations.EncodeOfDecodeIsIdentity :=
  fun _ _ h => standsFor_of_decodeHalfword h

/-! ### Undefined encodings -/

/-- The halfwords that rule R92's table gives a reason for. -/
def reasonCovers (w : Word) : Undefined → Prop
  | .haltUnusedField => 0x0001 ≤ w.toNat ∧ w.toNat ≤ 0x00FF
  | .format0Op => 0x0100 ≤ w.toNat ∧ w.toNat ≤ 0x1FFF
  | .format3Op => 0x3000 ≤ w.toNat ∧ w.toNat ≤ 0x3FFF
  | .format4Op => 0x4180 ≤ w.toNat ∧ w.toNat ≤ 0x43FF
  | .cmpBothLow => 0x4500 ≤ w.toNat ∧ w.toNat ≤ 0x453F
  | .format5Op => 0x4700 ≤ w.toNat ∧ w.toNat ≤ 0x47FF
  | .format12Sp => 0xA800 ≤ w.toNat ∧ w.toNat ≤ 0xAFFF
  | .condition => 0xDE00 ≤ w.toNat ∧ w.toNat ≤ 0xDFFF
  | .noFormat => (0x4800 ≤ w.toNat ∧ w.toNat ≤ 0x5FFF) ∨ (0x8000 ≤ w.toNat ∧ w.toNat ≤ 0x9FFF) ∨
      (0xB000 ≤ w.toNat ∧ w.toNat ≤ 0xBFFF) ∨ (0xC000 ≤ w.toNat ∧ w.toNat ≤ 0xCFFF) ∨
      (0xE000 ≤ w.toNat ∧ w.toNat ≤ 0xFFFF)
  | .tooFewBytes => False

/-- Every row of the table of fixed bits. -/
theorem fixedBits_encode (i : Instr) : Laws.TableRow.Statement i := by
  open Laws.TableRow in
  cases i
  exacts [halt, mov1 _ _, cmp1 _ _, and _ _, eor _ _, asr _ _, tst _ _, neg _ _, cmp2 _ _, add1 _ _, cmp3H1 _ _,
    cmp3H2 _ _, mov2 _ _, str _ _ _, ldr _ _ _, strb _ _ _, ldrb _ _ _, add2 _ _, beq _, bne _, bcs _, bcc _, bmi _,
    bpl _, bvs _, bvc _, bhi _, bls _, bge _, blt _, bgt _, ble _]

section
variable {w : Word} {e : Undefined}

/-- The list of undefined encodings is the table of reasons, range by range. -/
theorem isUndefinedEncoding_iff : Machine.isUndefinedEncoding w ↔ ∃ e, reasonCovers w e := by
  constructor
  · rintro (h | h | h | h | h | h | h | h | h | h | h | h | h)
    exacts [⟨.haltUnusedField, h⟩, ⟨.format0Op, h⟩, ⟨.format3Op, h⟩, ⟨.format4Op, h⟩, ⟨.cmpBothLow, h⟩,
      ⟨.format5Op, h⟩, ⟨.noFormat, .inl h⟩, ⟨.noFormat, .inr (.inl h)⟩, ⟨.format12Sp, h⟩,
      ⟨.noFormat, .inr (.inr (.inl h))⟩, ⟨.noFormat, .inr (.inr (.inr (.inl h)))⟩, ⟨.condition, h⟩,
      ⟨.noFormat, .inr (.inr (.inr (.inr h)))⟩]
  · rintro ⟨e, h⟩
    unfold Machine.isUndefinedEncoding
    cases e <;> simp only [reasonCovers] at h <;> omega

/-- The ranges of two reasons have no halfword in common. -/
theorem reasonCovers_unique {e' : Undefined} (h : reasonCovers w e) (h' : reasonCovers w e') : e = e' := by
  cases e <;> cases e' <;> simp only [reasonCovers, reduceCtorEq] at h h' ⊢ <;> omega

theorem reasonCovers_of_decodeFormat0 (hf : bitsOf w 13 3 = 0) (h : decodeFormat0 w = .error e) :
    reasonCovers w e := by
  unfold decodeFormat0 at h
  simp only [bitsOf_eq] at hf h
  split at h
  · cases h
    simp only [reasonCovers]
    omega
  · split at h <;> cases h
    simp only [reasonCovers]
    omega

theorem reasonCovers_of_decodeFormat3 (hf : bitsOf w 13 3 = 1) (h : decodeFormat3 w = .error e) :
    reasonCovers w e := by
  unfold decodeFormat3 at h
  split at h <;> cases h
  simp only [bitsOf_eq, imp_false, reasonCovers] at *
  omega

theorem reasonCovers_of_decodeFormat4 (hf : bitsOf w 13 3 = 2) (h11 : bitsOf w 11 2 = 0) (h10 : bitsOf w 10 1 = 0)
    (h : decodeFormat4 w = .error e) : reasonCovers w e := by
  unfold decodeFormat4 at h
  split at h <;> cases h
  simp only [bitsOf_eq, imp_false, reasonCovers] at *
  omega

theorem reasonCovers_of_decodeFormat5 (hf : bitsOf w 13 3 = 2) (h11 : bitsOf w 11 2 = 0) (h10 : bitsOf w 10 1 ≠ 0)
    (h : decodeFormat5 w = .error e) : reasonCovers w e := by
  unfold decodeFormat5 at h
  simp only [bitsOf_eq] at hf h11 h10 h
  split at h
  · cases h
  · split at h
    · cases h
    · split at h <;> cases h
      simp only [reasonCovers]
      omega
  · cases h
  · cases h
    simp only [imp_false, reasonCovers] at *
    omega

theorem reasonCovers_of_decodeFormat12 (hf : bitsOf w 13 3 = 5) (h : decodeFormat12 w = .error e) :
    reasonCovers w e := by
  unfold decodeFormat12 at h
  split at h <;> cases h
  all_goals
    simp only [bitsOf_eq, imp_false, reasonCovers] at *
    omega

theorem reasonCovers_of_decodeFormat16 (hf : bitsOf w 13 3 = 6) (h : decodeFormat16 w = .error e) :
    reasonCovers w e := by
  unfold decodeFormat16 decodeCond at h
  split at h
  · split at h <;> cases h
    simp only [bitsOf_eq, imp_false, reasonCovers] at *
    omega
  · cases h
    simp only [bitsOf_eq, reasonCovers] at *
    omega

theorem reasonCovers_of_decodeHalfword (h : decodeHalfword w = .error e) : reasonCovers w e := by
  unfold decodeHalfword at h
  split at h
  · next hf => exact reasonCovers_of_decodeFormat0 hf h
  · next hf => exact reasonCovers_of_decodeFormat3 hf h
  · next hf =>
    split at h
    · next h11 =>
      split at h
      · next h10 => exact reasonCovers_of_decodeFormat4 hf h11 h10 h
      · next h10 => exact reasonCovers_of_decodeFormat5 hf h11 h10 h
    · cases h
      simp only [bitsOf_eq, reasonCovers] at *
      omega
  · unfold decodeFormat9 at h
    split at h <;> cases h
  · next hf => exact reasonCovers_of_decodeFormat12 hf h
  · next hf => exact reasonCovers_of_decodeFormat16 hf h
  · cases h
    simp only [bitsOf_eq, imp_false, reasonCovers] at *
    omega

/-- A well-formed instruction's encoding has the fixed bits of its row, which lie outside the table's ranges. -/
theorem not_isUndefinedEncoding_encode {i : Instr} (hwf : i.wellFormed = true) :
    ¬ Machine.isUndefinedEncoding (encode i) := by
  have h := fixedBits_encode i hwf
  unfold Machine.isUndefinedEncoding
  cases i <;> simp only [Laws.TableRow.fixedBits] at h <;> omega

/-- The decoder rejects exactly the halfwords of rule R92's table, each for the reason the table gives. -/
theorem decodeHalfword_eq_error_iff : decodeHalfword w = .error e ↔ reasonCovers w e := by
  refine ⟨reasonCovers_of_decodeHalfword, fun h => ?_⟩
  cases hd : decodeHalfword w with
  | error e' => rw [reasonCovers_unique (reasonCovers_of_decodeHalfword hd) h]
  | ok i =>
    obtain ⟨hwf, rfl⟩ := standsFor_of_decodeHalfword hd
    exact absurd (isUndefinedEncoding_iff.2 ⟨e, h⟩) (not_isUndefinedEncoding_encode hwf)

end

/-- Settles O5: a halfword outside the table decodes, and what it decodes to encodes to it. -/
theorem undefinedEncodingsFault : Obligations.UndefinedEncodingsFault := by
  intro s w hrun hw
  refine ⟨fun hu => ?undefined, fun hd => ?defined⟩
  case undefined =>
    obtain ⟨e, he⟩ := isUndefinedEncoding_iff.1 hu
    simp only [Machine.step, hrun, hw, decodeHalfword_eq_error_iff.2 he, Bool.false_eq_true, if_false]
  case defined =>
    cases hi : decodeHalfword w with
    | error e => exact absurd (isUndefinedEncoding_iff.2 ⟨e, reasonCovers_of_decodeHalfword hi⟩) hd
    | ok i =>
      obtain ⟨hwf, henc⟩ := standsFor_of_decodeHalfword hi
      exact ⟨i, hwf, henc, Machine.step_of_fetch hrun hw hi⟩

/-- Settles O1: each halfword is decoded. -/
theorem decodeReadsSpecWords : Obligations.DecodeReadsSpecWords := by
  unfold Obligations.DecodeReadsSpecWords
  decide

end Sys2Proof
end

section
/-! PROOF. What every step keeps (10_state.md, 20_memory.md): each statement follows from the shapes that a next state
of `exec` can have. -/

namespace Sys2Proof.Machine

/-! ### HALT and the halted machine -/

/-- Settles O14: HALT replaces the halted condition alone. -/
theorem haltCompletes : Obligations.HaltCompletes :=
  fun s => ⟨s.withHalted true, rfl, rfl, rfl, rfl, fun _ _ _ => rfl, ⟨fun _ => rfl, rfl, rfl, rfl⟩, ⟨rfl, rfl⟩, rfl⟩

/-- A state that a step answers again is answered by any number of steps. -/
theorem run_of_step_self {s : State} (h : step s = .next s) (k : Nat) : Host.Core.run core k s = .next s := by
  induction k with
  | zero => rfl
  | succ k ih =>
    have hstep : core.step s = .next s := h
    simp only [Host.Core.run, hstep]
    exact ih

/-- Settles O16: the step of a halted machine answers the state itself. -/
theorem haltedMachineStaysAsItIs : Obligations.HaltedMachineStaysAsItIs :=
  fun k s h => run_of_step_self (by rw [step, if_pos h]) k

/-! ### Loads and stores that go on -/

section
variable {rd rb : LowReg} {imm : BitVec 5} {s t : State}

/-- An STR that goes on: its address in range, its access, and the advance of the PC. -/
theorem exec_str_next (h : exec (.str rd rb imm) s = .next t) :
    ∃ a u, effectiveAddress s rb (halfOffset imm) = .ok a ∧ storeHalfAligned s a (readReg s rd.toReg) = .ok u ∧
      nextInRange u ∧ t = u.withPc (u.pc + 2#16) := by
  rw [exec, execStr] at h
  split at h
  · cases h
  · next a ha =>
    obtain ⟨u, hu, hnext, rfl⟩ := finishStore_next h
    exact ⟨a, u, ha, hu, hnext, rfl⟩

/-- An STRB that goes on: its address in range, its access, and the advance of the PC. -/
theorem exec_strb_next (h : exec (.strb rd rb imm) s = .next t) :
    ∃ a u, effectiveAddress s rb (byteOffset imm) = .ok a ∧
      storeByte s a ((readReg s rd.toReg).extractLsb' 0 8) = .ok u ∧ nextInRange u ∧ t = u.withPc (u.pc + 2#16) := by
  rw [exec, execStrb] at h
  split at h
  · cases h
  · next a ha =>
    obtain ⟨u, hu, hnext, rfl⟩ := finishStore_next h
    exact ⟨a, u, ha, hu, hnext, rfl⟩

/-- An LDR that goes on: its address in range, its access, the value into Rd, and the advance of the PC. -/
theorem exec_ldr_next (h : exec (.ldr rd rb imm) s = .next t) :
    ∃ a v u, effectiveAddress s rb (halfOffset imm) = .ok a ∧ loadHalfAligned s a = .ok (v, u) ∧ nextInRange u ∧
      t = (writeReg u rd.toReg v).withPc (u.pc + 2#16) := by
  rw [exec, execLdr] at h
  split at h
  · cases h
  · next a ha =>
    obtain ⟨v, u, hu, hnext, rfl⟩ := finishLoad_next h
    exact ⟨a, v, u, ha, hu, hnext, rfl⟩

/-- An LDRB that goes on: its address in range, its access, the value into Rd, and the advance of the PC. -/
theorem exec_ldrb_next (h : exec (.ldrb rd rb imm) s = .next t) :
    ∃ a b u, effectiveAddress s rb (byteOffset imm) = .ok a ∧ loadByte s a = .ok (b, u) ∧ nextInRange u ∧
      t = (writeReg u rd.toReg (b.setWidth 16)).withPc (u.pc + 2#16) := by
  rw [exec, execLdrb] at h
  split at h
  · cases h
  · next a ha =>
    obtain ⟨v, u, hu, hnext, rfl⟩ := finishLoad_next h
    obtain ⟨b, hb, rfl⟩ := loadByteZeroExtended_ok hu
    exact ⟨a, b, u, ha, hb, hnext, rfl⟩

/-- LDRB's access, too, changes at most the draw counter. -/
theorem loadByte_ok_state {a : Word} {b : Byte} (h : loadByte s a = .ok (b, t)) :
    t = s ∨ t = s.withDraws (s.draws + 1) := by
  obtain ⟨-, -, rfl⟩ | ⟨-, -, rfl⟩ := loadByte_ok h
  · exact .inr rfl
  · exact .inl rfl

end

/-! ### Frames over all instructions -/

/-- Settles O15: in every shape but HALT's the halted condition is the old one. -/
theorem onlyHaltSetsHalted : Obligations.OnlyHaltSetsHalted := by
  intro i s t h
  cases exec_next_shape h with
  | halted hi e => simp [hi, e]
  | compared f e hd hs hb hi | jumped v f e hd hs hb hi | loaded d v n e hd hs hb hi | stored m l o n e hd hs hb hi
  | written d v f hne e hd hs hb hi => simp [hi, e]
  | branched c off hb e =>
    have hi : i ≠ .halt := by rintro rfl; cases hb
    rcases e with ⟨-, e⟩ | ⟨-, e⟩ <;> simp [hi, e]

/-- Settles O50: a shape that writes a register names it as the table's destination. -/
theorem registersWrittenByTable : Obligations.RegistersWrittenByTable := by
  intro i s t h r hpc hne
  cases exec_next_shape h with
  | halted hi e => rw [e, readReg_withHalted]
  | compared f e hd => rw [e, readReg_withPc_of_ne _ _ hpc, readReg_withFlags]
  | written d v f _ e hd =>
    rw [hd, ne_eq, Option.some.injEq] at hne
    rw [e, readReg_withPc_of_ne _ _ hpc, readReg_withFlags, readReg_writeReg_of_ne _ _ (Ne.symm hne)]
  | jumped v f e hd => rw [e, readReg_withFlags, readReg_withPc_of_ne _ _ hpc]
  | loaded d v n e hd =>
    rw [hd, ne_eq, Option.some.injEq] at hne
    rw [e, readReg_withPc_of_ne _ _ hpc, readReg_writeReg_of_ne _ _ (Ne.symm hne), readReg_withDraws]
  | stored m l o n e => rw [e, readReg_withPc_of_ne _ _ hpc]; rfl
  | branched c off hb e => rcases e with ⟨-, e⟩ | ⟨-, e⟩ <;> rw [e, readReg_withPc_of_ne _ _ hpc]

/-- Settles O52: only a store's shape touches memory, marks and outputs. -/
theorem onlyStoresChangeMemory : Obligations.OnlyStoresChangeMemory := by
  intro i s t h hstore
  suffices hm : t.mem = s.mem ∧ t.stored = s.stored ∧ t.outputs = s.outputs from
    ⟨fun a => congrArg (memRead · a) hm.1, hm⟩
  cases exec_next_shape h with
  | stored m l o n e hd hs => rw [hs] at hstore; cases hstore
  | halted _ e | compared _ e | written _ _ _ _ e | jumped _ _ e | loaded _ _ _ e => simp [e]
  | branched c off hb e => rcases e with ⟨-, e⟩ | ⟨-, e⟩ <;> simp [e]

/-- Settles O10: no shape touches the parameters or the upper status bits, and a store's appends its outputs. -/
theorem stepKeepsParameters : Obligations.StepKeepsParameters := by
  intro s t h
  obtain ⟨-, rfl⟩ | ⟨-, w, i, -, -, h⟩ := step_next h
  · exact ⟨rfl, rfl, List.prefix_rfl⟩
  cases exec_next_shape h with
  | stored m l o n e => simp [e]
  | halted _ e | compared _ e | written _ _ _ _ e | jumped _ _ e | loaded _ _ _ e => simp [e]
  | branched c off hb e => rcases e with ⟨-, e⟩ | ⟨-, e⟩ <;> simp [e]

/-! ### Stores and branches keep the flags -/

theorem isStore_iff {i : Instr} :
    isStore i = true ↔ (∃ rd rb imm, i = .str rd rb imm) ∨ ∃ rd rb imm, i = .strb rd rb imm := by
  cases i <;> simp [isStore]

section
variable {i : Instr} {s t : State}

/-- A store keeps every register, flag and condition, and advances the PC. -/
theorem frame_of_isStore (hs : isStore i = true) (h : exec i s = .next t) :
    keepsRegsExcept [] s t ∧ t.flags = s.flags ∧ t.halted = s.halted ∧ keepsFixed s t ∧ t.pc = s.pc + 2#16 := by
  cases exec_next_shape h with
  | stored m l o n e =>
    subst e
    exact ⟨fun r _ hpc => readReg_withPc_of_ne _ _ hpc, rfl, rfl, ⟨rfl, rfl⟩, rfl⟩
  | halted hi => rw [hi] at hs; cases hs
  | compared _ _ _ hs' | written _ _ _ _ _ _ hs' | jumped _ _ _ _ hs' | loaded _ _ _ _ _ hs' =>
    rw [hs] at hs'; cases hs'
  | branched c off hb => obtain ⟨_, _, _, rfl⟩ | ⟨_, _, _, rfl⟩ := isStore_iff.1 hs <;> cases hb

theorem flags_of_branch {c : Cond} {off : BitVec 8} (hb : branchOf i = some (c, off)) (h : exec i s = .next t) :
    t.flags = s.flags := by
  rw [exec_of_branch hb, branch] at h
  split at h
  · obtain ⟨-, rfl⟩ := branchBy_next h
    rfl
  · obtain ⟨-, rfl⟩ := advance_next h
    rfl

end

/-- Settles O51: what each instruction writes of the flags. -/
theorem flagsKeptByTable : Obligations.FlagsKeptByTable := by
  intro i s t h
  cases i with
  | add1 | cmp1 | cmp2 | cmp3H1 | cmp3H2 | neg => trivial
  | and | eor | tst =>
    obtain ⟨-, rfl⟩ := advance_next h
    simp [keepsCV]
  | mov1 rd imm =>
    obtain ⟨-, rfl⟩ := advance_next h
    simp [keepsCV, immediate8]
  | mov2 rd rs => obtain ⟨-, rfl⟩ | ⟨-, -, rfl⟩ := retire_next h <;> simp [keepsCV]
  | asr rd rs =>
    obtain ⟨-, rfl⟩ := advance_next h
    refine ⟨by simp, fun hn => ?_⟩
    simp [asrCarry, shiftAmount_eq, hn]
  | halt => cases h; rfl
  | add2 rd imm =>
    obtain ⟨-, rfl⟩ := advance_next h
    simp
  | str rd rb imm | strb rd rb imm =>
    obtain ⟨-, hflags, -⟩ := frame_of_isStore rfl h
    exact hflags
  | ldr rd rb imm =>
    obtain ⟨a, v, u, -, hu, -, rfl⟩ := exec_ldr_next h
    obtain rfl | rfl := loadHalfAligned_ok hu <;> simp
  | ldrb rd rb imm =>
    obtain ⟨a, b, u, -, hu, -, rfl⟩ := exec_ldrb_next h
    obtain rfl | rfl := loadByte_ok_state hu <;> simp
  | beq | bne | bcs | bcc | bmi | bpl | bvs | bvc | bhi | bls | bge | blt | bgt | ble => exact flags_of_branch rfl h

/-! ### The program counter -/

/-- A branch offset as a halfword: twice the signed 8-bit field. -/
theorem branchOffset_eq_ofInt (off : BitVec 8) : branchOffset off = BitVec.ofInt 16 (2 * off.toInt) := by
  rw [← branchOffset_toInt, BitVec.ofInt_toInt]

/-- Settles O53: what each shape leaves in the PC. -/
theorem pcAfterEachInstruction : Obligations.PcAfterEachInstruction := by
  intro i s t h
  refine ⟨?halt, ?add1, ?mov2, ?branch, ?other⟩
  case halt => rintro rfl; cases h; rfl
  case add1 =>
    rintro rs rfl
    cases h
    exact addFlags_r _ _
  case mov2 => rintro rs rfl; cases h; rfl
  case branch =>
    intro c off hb
    rw [exec_of_branch hb, branch] at h
    rw [← branchOffset_eq_ofInt, ← conditionHolds_iff]
    split at h
    · next hc =>
      obtain ⟨-, rfl⟩ := branchBy_next h
      exact ⟨fun _ => rfl, fun hn => absurd hc hn⟩
    · next hc =>
      obtain ⟨-, rfl⟩ := advance_next h
      exact ⟨fun hn => absurd hn hc, fun _ => rfl⟩
  case other =>
    intro hi hd hb
    cases exec_next_shape h with
    | halted h' => exact absurd h' hi
    | jumped _ _ _ hd' => exact absurd hd' hd
    | branched _ _ hb' => rw [hb] at hb'; cases hb'
    | compared _ e | written _ _ _ _ e | loaded _ _ _ e | stored _ _ _ _ e => rw [e, withPc_pc]

theorem even_add {a b : Word} (ha : a.toNat % 2 = 0) (hb : b.toNat % 2 = 0) : (a + b).toNat % 2 = 0 := by
  rw [BitVec.toNat_add]
  omega

theorem branchOffset_even (off : BitVec 8) : (branchOffset off).toNat % 2 = 0 := by
  revert off
  decide

/-- Settles O9: the shapes that do not write the PC keep it, or add 2 or an even branch offset. -/
theorem stepKeepsPcEven : Obligations.StepKeepsPcEven := by
  intro s t heven h
  obtain ⟨-, rfl⟩ | ⟨-, w, i, hw, hdec, h⟩ := step_next h
  · exact .inl heven
  cases exec_next_shape h with
  | jumped _ _ _ hd => exact .inr ⟨w, i, hw, hdec, hd⟩
  | halted _ e => exact .inl (by rwa [e, withHalted_pc])
  | compared _ e | written _ _ _ _ e | loaded _ _ _ e | stored _ _ _ _ e =>
    exact .inl (by rw [e, withPc_pc]; exact even_add heven rfl)
  | branched c off hb e =>
    left
    rcases e with ⟨-, rfl⟩ | ⟨-, rfl⟩
    · exact even_add heven (branchOffset_even off)
    · exact even_add heven rfl

/-! ### The invariant of memory and marks -/

section
variable {s t : State}

/-- The invariant speaks of memory and the marks alone. -/
theorem inv_congr (hm : t.mem = s.mem) (hl : t.stored = s.stored) (h : s.Inv) : t.Inv := by
  rwa [State.Inv, hm, hl]

theorem storeByte_inv {a : Word} {v : Byte} (hs : s.Inv) (h : storeByte s a v = .ok t) : t.Inv := by
  obtain ⟨-, rfl⟩ | ⟨-, rfl⟩ := storeByte_ok h
  · exact hs
  · exact putByte_inv hs a v

theorem storeHalf_inv {a v : Word} (hs : s.Inv) (h : storeHalf s a v = .ok t) : t.Inv := by
  obtain ⟨-, rfl⟩ | ⟨-, rfl⟩ := storeHalf_ok h
  · exact hs
  · exact putByte_inv (putByte_inv hs _ _) a _

theorem storeHalfAligned_inv {a v : Word} (hs : s.Inv) (h : storeHalfAligned s a v = .ok t) : t.Inv := by
  obtain ⟨-, h⟩ | ⟨-, -, h⟩ := storeHalfAligned_ok h
  · exact storeHalf_inv hs h
  · exact storeHalf_inv (s := s.withDraws (s.draws + 1)) hs h

end

/-- Settles O8: a store puts bytes and their marks in place, and nothing else touches memory or marks. -/
theorem stepKeepsInvariant : Obligations.StepKeepsInvariant := by
  intro s t hs h
  obtain ⟨-, rfl⟩ | ⟨-, w, i, -, -, h⟩ := step_next h
  · exact hs
  cases hi : isStore i with
  | false =>
    obtain ⟨-, hm, hl, -⟩ := onlyStoresChangeMemory i s t h hi
    exact inv_congr hm hl hs
  | true =>
    obtain ⟨rd, rb, imm, rfl⟩ | ⟨rd, rb, imm, rfl⟩ := isStore_iff.1 hi
    · obtain ⟨a, u, -, hu, -, rfl⟩ := exec_str_next h
      exact (storeHalfAligned_inv hs hu :)
    · obtain ⟨a, u, -, hu, -, rfl⟩ := exec_strb_next h
      exact (storeByte_inv hs hu :)

/-- Settles O7: memory and marks are empty at reset. -/
theorem resetMeetsInvariant : Obligations.ResetMeetsInvariant :=
  ⟨reset_memory_wf, ⟨List.Pairwise.nil, fun _ h => absurd h List.not_mem_nil⟩, fun _ h => absurd h List.not_mem_nil⟩

end Sys2Proof.Machine
end

section
/-! PROOF. Where executing an instruction goes on and where it stops (60_exceptions.md): data processing and branches
rest on the PC alone, loads and stores on the address, the alignment and what stands there. -/

namespace Sys2Proof.Machine

/-! ### Data processing -/

/-- Whether an instruction is one of 40_data_processing.md. -/
def isDataProcessing : Instr → Bool
  | .mov1 _ _ | .cmp1 _ _ | .and _ _ | .eor _ _ | .asr _ _ | .tst _ _ | .neg _ _ | .cmp2 _ _ | .add1 _ _
  | .cmp3H1 _ _ | .cmp3H2 _ _ | .mov2 _ _ | .add2 _ _ => true
  | _ => false

/-- A data-processing instruction ends at the PC it wrote, or else by the advance of a PC it has not written. -/
theorem exec_of_isDataProcessing {i : Instr} (h : isDataProcessing i = true) (s : State) :
    (destination i = some Reg.pc ∧ ∃ t, exec i s = .next t) ∨
      ∃ u, exec i s = advance u ∧ u.pc = s.pc ∧ u.params = s.params := by
  cases i with
  | add1 rd rs | mov2 rd rs =>
    by_cases hd : rd = Reg.pc
    · subst hd
      exact .inl ⟨rfl, _, rfl⟩
    · exact .inr ⟨_, retire_of_ne hd _, by simp [hd], by simp⟩
  | mov1 | cmp1 | and | eor | asr | tst | neg | cmp2 | cmp3H1 | cmp3H2 | add2 => exact .inr ⟨_, rfl, by simp, by simp⟩
  | _ => cases h

theorem advance_of_pc_not_inRange {s u : State} (h : ¬ nextInRange s) (hpc : u.pc = s.pc) (hp : u.params = s.params) :
    advance u = .fault .addressWrap :=
  advance_of_not_inRange (by simpa only [nextInRange, hpc, hp] using h)

/-- Data processing that does not write the PC stops where the PC cannot advance. -/
theorem exec_of_isDataProcessing_not_inRange {i : Instr} {s : State} (h : isDataProcessing i = true)
    (hd : destination i ≠ some Reg.pc) (hr : ¬ nextInRange s) : exec i s = .fault .addressWrap := by
  obtain ⟨hd', -⟩ | ⟨u, hu, hpc, hp⟩ := exec_of_isDataProcessing h s
  · exact absurd hd' hd
  · rw [hu, advance_of_pc_not_inRange hr hpc hp]

/-- The instructions by their kind: HALT, data processing, B, the loads and the stores. -/
theorem instr_kinds (i : Instr) :
    i = .halt ∨ isDataProcessing i = true ∨ (∃ c off, branchOf i = some (c, off)) ∨
      ∃ rd rb imm, i = .ldr rd rb imm ∨ i = .ldrb rd rb imm ∨ i = .str rd rb imm ∨ i = .strb rd rb imm := by
  cases i <;> simp [isDataProcessing, branchOf]

/-! ### The last halfword -/

/-- An instruction that adds 2 to the PC goes on only where that stays in range. -/
theorem nextInRange_of_exec_next {i : Instr} {s t : State} (hi : i ≠ .halt) (hd : destination i ≠ some Reg.pc)
    (hb : branchOf i = none) (h : exec i s = .next t) : nextInRange s := by
  by_contra hr
  obtain hi' | hdp | ⟨c, off, hb'⟩ | ⟨rd, rb, imm, rfl | rfl | rfl | rfl⟩ := instr_kinds i
  · exact hi hi'
  · rw [exec_of_isDataProcessing_not_inRange hdp hd hr] at h
    cases h
  · rw [hb] at hb'
    cases hb'
  · obtain ⟨a, v, u, -, hu, hn, -⟩ := exec_ldr_next h
    obtain rfl | rfl := loadHalfAligned_ok hu <;> exact hr hn
  · obtain ⟨a, b, u, -, hu, hn, -⟩ := exec_ldrb_next h
    obtain rfl | rfl := loadByte_ok_state hu <;> exact hr hn
  · obtain ⟨a, u, -, hu, hn, -⟩ := exec_str_next h
    obtain ⟨-, hu⟩ | ⟨-, -, hu⟩ := storeHalfAligned_ok hu <;> obtain ⟨-, rfl⟩ | ⟨-, rfl⟩ := storeHalf_ok hu <;>
      exact hr hn
  · obtain ⟨a, u, -, hu, hn, -⟩ := exec_strb_next h
    obtain ⟨-, rfl⟩ | ⟨-, rfl⟩ := storeByte_ok hu <;> exact hr hn

theorem isDataProcessing_of_comparands {i : Instr} {s : State} {p : Word × Word} (h : comparands s i = some p) :
    isDataProcessing i = true := by
  cases i with
  | cmp1 | cmp2 | cmp3H1 | cmp3H2 => rfl
  | _ => cases h

theorem branch_of_not_conditionTable {c : Cond} {off : BitVec 8} {s : State} (h : ¬ conditionTable c s.flags) :
    branch c off s = advance s :=
  if_neg (mt (conditionHolds_iff c s.flags).1 h)

theorem branch_of_conditionTable {c : Cond} {off : BitVec 8} {s : State} (h : conditionTable c s.flags) :
    branch c off s = branchBy s (branchOffset off) :=
  if_pos ((conditionHolds_iff c s.flags).2 h)

/-- Settles O54: without room for the PC's advance no instruction that needs it goes on. -/
theorem lastHalfwordIsNotLeft : Obligations.LastHalfwordIsNotLeft := by
  intro i s hstrict hpc hi hd
  have hr : ¬ nextInRange s := by
    rintro (hwrap | hlt)
    · rw [hstrict] at hwrap
      cases hwrap
    · omega
  refine ⟨fun hb t h => hr (nextInRange_of_exec_next hi hd hb h), fun c off hb hc => ?branch, fun hk => ?processing⟩
  case branch => rw [exec_of_branch hb, branch_of_not_conditionTable hc, advance_of_not_inRange hr]
  case processing =>
    have hdp : isDataProcessing i = true := by
      obtain ⟨a, b, h⟩ | ⟨rd, rs, rfl | rfl | rfl | rfl | rfl⟩ | ⟨rd, imm, rfl | rfl⟩ | ⟨rd, rs, rfl | rfl⟩ := hk
      · exact isDataProcessing_of_comparands h
      all_goals rfl
    exact exec_of_isDataProcessing_not_inRange hdp hd hr

/-! ### No access changes the parameters -/

section
variable {s u : State} {a v : Word}

theorem loadByteZeroExtended_params (h : loadByteZeroExtended s a = .ok (v, u)) : u.params = s.params := by
  obtain ⟨b, hb, -⟩ := loadByteZeroExtended_ok h
  obtain rfl | rfl := loadByte_ok_state hb <;> rfl

theorem loadHalfAligned_params (h : loadHalfAligned s a = .ok (v, u)) : u.params = s.params := by
  obtain rfl | rfl := loadHalfAligned_ok h <;> rfl

theorem storeByte_params {b : Byte} (h : storeByte s a b = .ok u) : u.params = s.params := by
  obtain ⟨-, rfl⟩ | ⟨-, rfl⟩ := storeByte_ok h <;> rfl

theorem storeHalfAligned_params (h : storeHalfAligned s a v = .ok u) : u.params = s.params := by
  obtain ⟨-, h⟩ | ⟨-, -, h⟩ := storeHalfAligned_ok h <;> obtain ⟨-, rfl⟩ | ⟨-, rfl⟩ := storeHalf_ok h <;> rfl

end

/-! ### Why an access or an advance stops -/

/-- The stop of an address calculation: under `strict` (20_memory.md rule R62). -/
def StopsByWrap (s : State) (f : Fault) : Prop := f = .addressWrap ∧ s.params.wrapPolicy = .strict

/-- The stop of an unaligned halfword access: under `UnalignedPolicy.fault` (20_memory.md rule R57). -/
def StopsByAlignment (s : State) (f : Fault) : Prop :=
  f = .unalignedHalfword ∧ s.params.unalignedPolicy = .fault

/-- The stop at an address that reaches nothing (20_memory.md rule R63). -/
def StopsAtHole (s : State) (f : Fault) : Prop :=
  f = .unpopulatedAddress ∧ ∃ a, isIO s a = false ∧ isPopulated s a = false

/-- The stop at a byte that nothing has given a value (10_state.md rule R40). -/
def StopsAtUnwritten (s : State) (f : Fault) : Prop :=
  f = .unwrittenMemory ∧ ∃ a, isIO s a = false ∧ memRead s.mem a.toNat = none

section
variable {s : State} {f : Fault}

theorem strict_of_ne_wrap (h : s.params.wrapPolicy ≠ .wrap) : s.params.wrapPolicy = .strict := by
  cases hp : s.params.wrapPolicy
  · rfl
  · exact absurd hp h

theorem advance_stops {u : State} (hp : u.params = s.params) (h : advance u = .fault f) : StopsByWrap s f := by
  obtain ⟨hr, rfl⟩ := advance_fault h
  exact ⟨rfl, hp ▸ strict_of_ne_wrap fun hw => hr (.inl hw)⟩

theorem branch_stops {c : Cond} {off : BitVec 8} (h : branch c off s = .fault f) : StopsByWrap s f := by
  by_cases hc : conditionTable c s.flags
  · rw [branch_of_conditionTable hc] at h
    by_cases hr : targetInRange s off
    · rw [branchBy_of_inRange hr] at h
      cases h
    · rw [branchBy_of_not_inRange hr] at h
      cases h
      exact ⟨rfl, strict_of_ne_wrap fun hw => hr (.inl hw)⟩
  · rw [branch_of_not_conditionTable hc] at h
    exact advance_stops rfl h

theorem effectiveAddress_stops {rb : LowReg} {n : Nat} (h : effectiveAddress s rb n = .error f) :
    StopsByWrap s f := by
  by_cases hr : addressInRange s rb n
  · rw [effectiveAddress_of_inRange hr] at h
    cases h
  · rw [effectiveAddress_of_not_inRange hr] at h
    cases h
    exact ⟨rfl, strict_of_ne_wrap fun hw => hr (.inl hw)⟩

/-- A halfword access without a device byte reaches a hole unless both bytes are populated. -/
theorem hole_of_half {a : Word} (hio : ¬ isIOHalf s a = true)
    (hp : ¬ (isPopulated s a && isPopulated s (nextByte a)) = true) : StopsAtHole s .unpopulatedAddress := by
  simp only [isIOHalf, Bool.or_eq_true, not_or, Bool.not_eq_true] at hio
  simp only [Bool.and_eq_true, not_and_or, Bool.not_eq_true] at hp
  obtain ⟨hlo, hhi⟩ := hio
  obtain hp | hp := hp
  · exact ⟨rfl, a, hlo, hp⟩
  · exact ⟨rfl, nextByte a, hhi, hp⟩

theorem loadByte_stops {a : Word} (h : loadByte s a = .error f) : StopsAtHole s f ∨ StopsAtUnwritten s f := by
  unfold loadByte at h
  split at h
  · cases h
  · next hio =>
    rw [Bool.not_eq_true] at hio
    split at h
    · split at h
      · cases h
      · next hm =>
        cases h
        exact .inr ⟨rfl, a, hio, hm⟩
    · next hp =>
      cases h
      exact .inl ⟨rfl, a, hio, by simpa using hp⟩

theorem loadByteZeroExtended_stops {a : Word} (h : loadByteZeroExtended s a = .error f) :
    StopsAtHole s f ∨ StopsAtUnwritten s f := by
  unfold loadByteZeroExtended at h
  split at h
  · next hx =>
    cases h
    exact loadByte_stops hx
  · cases h

theorem loadHalf_stops {a : Word} (h : loadHalf s a = .error f) : StopsAtHole s f ∨ StopsAtUnwritten s f := by
  unfold loadHalf at h
  split at h
  · cases h
  · next hio =>
    split at h
    · split at h
      · cases h
      · next hm =>
        cases h
        simp only [isIOHalf, Bool.or_eq_true, not_or, Bool.not_eq_true] at hio
        obtain ⟨hlo, hhi⟩ := hio
        right
        cases hml : memRead s.mem a.toNat with
        | none => exact ⟨rfl, a, hlo, hml⟩
        | some lo =>
          refine ⟨rfl, nextByte a, hhi, Option.eq_none_iff_forall_ne_some.2 fun hi hmh => ?_⟩
          exact hm lo hi hml hmh
    · next hp =>
      cases h
      exact .inl (hole_of_half hio hp)

theorem loadHalfAligned_stops {a : Word} (h : loadHalfAligned s a = .error f) :
    StopsByAlignment s f ∨ StopsAtHole s f ∨ StopsAtUnwritten s f := by
  unfold loadHalfAligned at h
  split at h
  · exact .inr (loadHalf_stops h)
  · split at h
    · next hpol =>
      cases h
      exact .inl ⟨rfl, hpol⟩
    · split at h
      · cases h
      · next he =>
        cases h
        simp only [halfExists, Bool.or_eq_true, not_or] at he
        exact .inr (.inl (hole_of_half he.1 he.2))

theorem storeByte_stops {a : Word} {v : Byte} (h : storeByte s a v = .error f) : StopsAtHole s f := by
  unfold storeByte at h
  split at h
  · cases h
  · next hio =>
    split at h
    · cases h
    · next hp =>
      cases h
      exact ⟨rfl, a, by simpa using hio, by simpa using hp⟩

theorem storeHalf_stops {a v : Word} (h : storeHalf s a v = .error f) : StopsAtHole s f := by
  unfold storeHalf at h
  split at h
  · cases h
  · next hio =>
    split at h
    · cases h
    · next hp =>
      cases h
      exact hole_of_half hio hp

theorem storeHalfAligned_stops {a v : Word} (h : storeHalfAligned s a v = .error f) :
    StopsByAlignment s f ∨ StopsAtHole s f := by
  unfold storeHalfAligned at h
  split at h
  · exact .inr (storeHalf_stops h)
  · split at h
    · next hpol =>
      cases h
      exact .inl ⟨rfl, hpol⟩
    · exact .inr (storeHalf_stops h :)

theorem finishLoad_stops {rd : LowReg} {x : Except Fault (Word × State)}
    (hx : ∀ v u, x = .ok (v, u) → u.params = s.params) (h : finishLoad rd x = .fault f) :
    x = .error f ∨ StopsByWrap s f := by
  cases x with
  | error g =>
    cases h
    exact .inl rfl
  | ok p => exact .inr (advance_stops (by simpa using hx p.1 p.2 rfl) h)

theorem finishStore_stops {x : Except Fault State} (hx : ∀ u, x = .ok u → u.params = s.params)
    (h : finishStore x = .fault f) : x = .error f ∨ StopsByWrap s f := by
  cases x with
  | error g =>
    cases h
    exact .inl rfl
  | ok u => exact .inr (advance_stops (hx u rfl) h)

end

/-! ### Why an instruction stops -/

section
variable {s : State} {f : Fault} {rd rb : LowReg} {imm : BitVec 5}

theorem exec_ldr_stops (h : exec (.ldr rd rb imm) s = .fault f) :
    StopsByWrap s f ∨ StopsByAlignment s f ∨ StopsAtHole s f ∨ StopsAtUnwritten s f := by
  rw [exec, execLdr] at h
  split at h
  · next ha =>
    cases h
    exact .inl (effectiveAddress_stops ha)
  · obtain hx | hw := finishLoad_stops (fun v u hu => loadHalfAligned_params hu) h
    · exact .inr (loadHalfAligned_stops hx)
    · exact .inl hw

theorem exec_ldrb_stops (h : exec (.ldrb rd rb imm) s = .fault f) :
    StopsByWrap s f ∨ StopsAtHole s f ∨ StopsAtUnwritten s f := by
  rw [exec, execLdrb] at h
  split at h
  · next ha =>
    cases h
    exact .inl (effectiveAddress_stops ha)
  · obtain hx | hw := finishLoad_stops (fun v u hu => loadByteZeroExtended_params hu) h
    · exact .inr (loadByteZeroExtended_stops hx)
    · exact .inl hw

theorem exec_str_stops (h : exec (.str rd rb imm) s = .fault f) :
    StopsByWrap s f ∨ StopsByAlignment s f ∨ StopsAtHole s f := by
  rw [exec, execStr] at h
  split at h
  · next ha =>
    cases h
    exact .inl (effectiveAddress_stops ha)
  · obtain hx | hw := finishStore_stops (fun u hu => storeHalfAligned_params hu) h
    · exact .inr (storeHalfAligned_stops hx)
    · exact .inl hw

theorem exec_strb_stops (h : exec (.strb rd rb imm) s = .fault f) : StopsByWrap s f ∨ StopsAtHole s f := by
  rw [exec, execStrb] at h
  split at h
  · next ha =>
    cases h
    exact .inl (effectiveAddress_stops ha)
  · obtain hx | hw := finishStore_stops (fun u hu => storeByte_params hu) h
    · exact .inr (storeByte_stops hx)
    · exact .inl hw

/-- Why an instruction stops, and which instructions stop for each reason. -/
theorem exec_stops {i : Instr} (h : exec i s = .fault f) :
    StopsByWrap s f ∨ (StopsByAlignment s f ∧ ∃ rd rb imm, i = .ldr rd rb imm ∨ i = .str rd rb imm) ∨
      (StopsAtHole s f ∧ ∃ rd rb imm, i = .ldr rd rb imm ∨ i = .str rd rb imm ∨ i = .ldrb rd rb imm ∨
        i = .strb rd rb imm) ∨
      (StopsAtUnwritten s f ∧ ∃ rd rb imm, i = .ldr rd rb imm ∨ i = .ldrb rd rb imm) := by
  obtain rfl | hdp | ⟨c, off, hb⟩ | ⟨rd, rb, imm, rfl | rfl | rfl | rfl⟩ := instr_kinds i
  · cases h
  · obtain ⟨-, t, ht⟩ | ⟨u, hu, -, hp⟩ := exec_of_isDataProcessing hdp s
    · rw [ht] at h
      cases h
    · rw [hu] at h
      exact .inl (advance_stops hp h)
  · rw [exec_of_branch hb] at h
    exact .inl (branch_stops h)
  · obtain hf | hf | hf | hf := exec_ldr_stops h
    · exact .inl hf
    · exact .inr (.inl ⟨hf, rd, rb, imm, .inl rfl⟩)
    · exact .inr (.inr (.inl ⟨hf, rd, rb, imm, .inl rfl⟩))
    · exact .inr (.inr (.inr ⟨hf, rd, rb, imm, .inl rfl⟩))
  · obtain hf | hf | hf := exec_ldrb_stops h
    · exact .inl hf
    · exact .inr (.inr (.inl ⟨hf, rd, rb, imm, .inr (.inr (.inl rfl))⟩))
    · exact .inr (.inr (.inr ⟨hf, rd, rb, imm, .inr rfl⟩))
  · obtain hf | hf | hf := exec_str_stops h
    · exact .inl hf
    · exact .inr (.inl ⟨hf, rd, rb, imm, .inr rfl⟩)
    · exact .inr (.inr (.inl ⟨hf, rd, rb, imm, .inr (.inl rfl)⟩))
  · obtain hf | hf := exec_strb_stops h
    · exact .inl hf
    · exact .inr (.inr (.inl ⟨hf, rd, rb, imm, .inr (.inr (.inr rfl))⟩))

end

/-! ### Nothing is refused -/

section
variable {s : State} {r : Refusal}

theorem branch_not_refused {c : Cond} {off : BitVec 8} : branch c off s ≠ .refused r := by
  unfold branch branchBy
  split
  · dsimp only
    split <;> simp
  · exact advance_not_refused

theorem finishLoad_not_refused {rd : LowReg} {x : Except Fault (Word × State)} : finishLoad rd x ≠ .refused r := by
  cases x with
  | error f => simp [finishLoad]
  | ok p => exact advance_not_refused

theorem finishStore_not_refused {x : Except Fault State} : finishStore x ≠ .refused r := by
  cases x with
  | error f => simp [finishStore]
  | ok u => exact advance_not_refused

theorem exec_not_refused {i : Instr} : exec i s ≠ .refused r := by
  obtain rfl | hdp | ⟨c, off, hb⟩ | ⟨rd, rb, imm, rfl | rfl | rfl | rfl⟩ := instr_kinds i
  · simp [exec, execHalt, halt]
  · obtain ⟨-, t, ht⟩ | ⟨u, hu, -⟩ := exec_of_isDataProcessing hdp s
    · simp [ht]
    · rw [hu]
      exact advance_not_refused
  · rw [exec_of_branch hb]
    exact branch_not_refused
  · rw [exec, execLdr]
    split
    · simp
    · exact finishLoad_not_refused
  · rw [exec, execLdrb]
    split
    · simp
    · exact finishLoad_not_refused
  · rw [exec, execStr]
    split
    · simp
    · exact finishStore_not_refused
  · rw [exec, execStrb]
    split
    · simp
    · exact finishStore_not_refused

theorem step_not_refused : step s ≠ .refused r := by
  unfold step
  split
  · simp
  · split
    · simp
    · split
      · simp
      · exact exec_not_refused

end

/-- Settles O59: each stop of `exec` has one of the four causes, and no operation refuses. -/
theorem stopsOfExec : Obligations.StopsOfExec := by
  refine ⟨fun s r => step_not_refused, fun i s f h => ?_⟩
  obtain hw | ⟨⟨rfl, hpol⟩, hi⟩ | ⟨⟨rfl, -⟩, hi⟩ | ⟨⟨rfl, -⟩, hi⟩ := exec_stops h
  · exact .inl hw
  · exact .inr (.inl ⟨rfl, hpol, hi⟩)
  · exact .inr (.inr (.inl ⟨rfl, hi⟩))
  · exact .inr (.inr (.inr ⟨rfl, hi⟩))

/-- Settles O58: the hypotheses exclude every cause of a stop. -/
theorem everyInstructionCompletes : Obligations.EveryInstructionCompletes := by
  intro i s hwrap harb hmem
  cases h : exec i s with
  | next t => exact ⟨t, rfl⟩
  | refused r => exact absurd h exec_not_refused
  | fault f =>
    exfalso
    obtain ⟨-, hs⟩ | ⟨⟨-, hpol⟩, -⟩ | ⟨⟨-, a, hio, hp⟩, -⟩ | ⟨⟨-, a, hio, hm⟩, -⟩ := exec_stops h
    · rw [hwrap] at hs
      cases hs
    · rw [harb] at hpol
      cases hpol
    · simpa [hio, hp] using hmem a
    · simpa [hio, hm] using hmem a

end Sys2Proof.Machine
end

section
/-! PROOF. Data processing with any register, and ASR (40_data_processing.md); the flag computations against the 17-bit
adder and the sign test (00_scope.md section 4). -/

namespace Sys2Proof.Machine

/-! ### AddFlags and SubFlags -/

/-- The sign bit of a halfword is set when its unsigned value is in the upper half. -/
theorem sign_eq_decide (a : Word) : a.getLsbD 15 = decide (32768 ≤ a.toNat) := by
  have h := BitVec.msb_eq_decide a
  rw [BitVec.msb_eq_getLsbD_last] at h
  simpa using h

/-- The signed value of a halfword from its unsigned one. -/
theorem toInt_eq_ite (a : Word) : a.toInt = if 32768 ≤ a.toNat then (a.toNat : Int) - 65536 else a.toNat := by
  rw [BitVec.toInt_eq_toNat_cond]
  split <;> split <;> omega

/-- Bit 16 of a 17-bit value is set when it is 2^16 or more. -/
theorem bit16_eq_decide (x : BitVec 17) : x.getLsbD 16 = decide (65536 ≤ x.toNat) := by
  have h := BitVec.msb_eq_decide x
  rw [BitVec.msb_eq_getLsbD_last] at h
  simpa using h

/-- Settles O30: carry and overflow are both read off the unsigned values. -/
theorem addFlagsBitTest : Obligations.AddFlagsBitTest := by
  intro a b
  have ha := a.isLt
  have hb := b.isLt
  refine ⟨addFlags_r a b, ?carry, ?overflow⟩
  case carry =>
    rw [addFlags_c, bit16_eq_decide, BitVec.toNat_add, BitVec.toNat_setWidth, BitVec.toNat_setWidth]
    simp only [decide_eq_true_eq]
    omega
  case overflow =>
    rw [addFlags_v, signedOverflow_iff, toInt_eq_ite, toInt_eq_ite, sign_eq_decide, sign_eq_decide, sign_eq_decide,
      BitVec.toNat_add]
    simp only [ne_eq, decide_eq_decide]
    split <;> split <;> omega

/-- Settles O31: NOT `b` is 2^16 - 1 minus `b`, so the sum is 2^16 plus the difference. -/
theorem subFlagsMatchAdder : Obligations.SubFlagsMatchAdder := by
  intro a b sum
  have ha := a.isLt
  have hb := b.isLt
  have hsum : sum.toNat = a.toNat + 65536 - b.toNat := by
    simp only [sum, BitVec.toNat_add, BitVec.toNat_setWidth, BitVec.toNat_not, BitVec.toNat_ofNat]
    omega
  refine ⟨?result, ?carry, ?overflow, ?zero⟩
  case result =>
    apply BitVec.eq_of_toNat_eq
    rw [subFlags_r, BitVec.toNat_sub, BitVec.toNat_setWidth, hsum]
    omega
  case carry =>
    rw [subFlags_c, bit16_eq_decide, hsum, decide_eq_decide]
    omega
  case overflow =>
    rw [subFlags_v, signedOverflow_iff, toInt_eq_ite, toInt_eq_ite, sign_eq_decide, sign_eq_decide, sign_eq_decide,
      BitVec.toNat_sub]
    simp only [ne_eq, decide_eq_decide]
    split <;> split <;> omega
  case zero => simp [subFlags_c]

/-! ### ASR -/

theorem asrResult_zero (a : Word) : asrResult a 0 = a := rfl

theorem asrResult_of_le {n : Nat} (a : Word) (h : 16 ≤ n) :
    asrResult a n = if a.getLsbD 15 = true then 0xFFFF#16 else 0x0000#16 := by
  rw [asrResult, if_neg (by omega), if_neg (by omega)]

/-- Below 16 the bits of the result are the operand's, moved down and filled with its sign. -/
theorem asrResult_getLsbD {a : Word} {n k : Nat} (hpos : 0 < n) (hlt : n < 16) (hk : k < 16) :
    (asrResult a n).getLsbD k = if k + n < 16 then a.getLsbD (k + n) else a.getLsbD 15 := by
  rw [asrResult_eq_sshiftRight a hpos hlt, BitVec.getLsbD_sshiftRight, BitVec.msb_eq_getLsbD_last, Nat.add_comm n k]
  simp [show ¬ 16 ≤ k by omega]

theorem asrCarry_of_lt {n : Nat} (a : Word) (old : Bool) (hpos : 0 < n) (hlt : n < 16) :
    asrCarry a n old = a.getLsbD (n - 1) := by
  rw [asrCarry, if_neg (by omega), if_pos hlt]

theorem asrCarry_of_le {n : Nat} (a : Word) (old : Bool) (h : 16 ≤ n) : asrCarry a n old = a.getLsbD 15 := by
  rw [asrCarry, if_neg (by omega), if_neg (by omega)]

/-- What ASR answers, its result and its carry as computed. -/
theorem exec_asr_of_inRange {s : State} (h : nextInRange s) (rd rs : LowReg) :
    let a := readReg s rd.toReg
    let n := (readReg s rs.toReg).toNat % 256
    ∃ t, exec (.asr rd rs) s = .next t ∧ readReg t rd.toReg = asrResult a n ∧
      t.flags.c = asrCarry a n s.flags.c ∧ flagsShowNZ t (asrResult a n) ∧ t.flags.v = s.flags.v ∧
      t.pc = s.pc + 2#16 ∧ keepsAllBut [rd.toReg] s t := by
  intro a n
  obtain ⟨t, ht, hf, hr, hpc, hk⟩ := advance_of_keepsAllBut
    (u := setNZ (setC (writeLow s rd (asrResult a n)) (asrCarry a n s.flags.c)) (asrResult a n)) h (by simp)
    (keepsAllBut_withFlags (keepsAllBut_withFlags (keepsAllBut_writeReg s rd.toReg _) _) _)
  refine ⟨t, ?_, ?_, by simp [hf], flagsShowNZ_of_flags_eq hf, by simp [hf], hpc, hk⟩
  · rw [← ht, exec, execAsr, shiftAmount_eq]
    rfl
  · rw [hr, readReg_setNZ, readReg_setC, writeLow_def, readReg_writeReg_self]

/-- Settles O22: result and carry in the three ranges of the amount.  (`asrResult` names the model's function.) -/
theorem execAsrResult : Obligations.AsrResult := by
  intro rd rs s
  refine ⟨?encoding, fun h => ?result⟩
  case encoding =>
    rw [encode, encodeFormat4_toNat, BitVec.toNat_ofNat]
    omega
  case result =>
    obtain ⟨t, ht, hr, hc, hnz, hrest⟩ := exec_asr_of_inRange h rd rs
    refine ⟨t, ht, fun hn => ?_, fun hpos hlt => ⟨fun k hk => ?_, ?_⟩, fun hle => ⟨?_, ?_⟩, hr ▸ hnz, hrest⟩
    · rw [hr, hc, hn]
      exact ⟨rfl, rfl⟩
    · rw [hr, asrResult_getLsbD hpos hlt hk]
    · rw [hc, asrCarry_of_lt _ _ hpos hlt]
    · rw [hr, asrResult_of_le _ hle]
    · rw [hc, asrCarry_of_le _ _ hle]

/-- For amounts 1 to 15 the signed result is the floor of the signed operand over 2^n. -/
theorem asrResult_toInt {n : Nat} (a : Word) (hpos : 0 < n) (hlt : n < 16) :
    (asrResult a n).toInt = a.toInt / 2 ^ n := by
  rw [asrResult_eq_sshiftRight a hpos hlt, BitVec.toInt_sshiftRight, Int.shiftRight_eq_div_pow]
  rfl

/-- Settles O23: the result is the floor quotient, and a floor quotient lies within one of the exact one. -/
theorem asrIsFloorDivision : Obligations.AsrIsFloorDivision := by
  intro rd rs s t h n hpos hlt
  obtain ⟨u, hu, hr, -⟩ := exec_asr_of_inRange (nextInRange_of_exec_next (by simp) (by simp [destination]) rfl h) rd rs
  cases hu.symm.trans h
  have hpow : (0 : Int) < 2 ^ n := by positivity
  rw [hr, asrResult_toInt _ hpos hlt]
  exact ⟨Int.mul_ediv_self_le hpow.ne', by linarith [Int.lt_mul_ediv_self_add (x := (readReg s rd.toReg).toInt) hpow]⟩

/-! ### ADD(1), MOV(2) and CMP(3): any register, the PC included -/

theorem flagsShowAdd_of_flags_eq {t u : State} {a b : Word} (h : t.flags = (setNZCV u (addFlags a b)).flags) :
    flagsShowAdd t a b := by
  simp [flagsShowAdd, flagsShowNZ, h, addFlags_r, addFlags_c, addFlags_v, signedOverflow_iff]

/-- A Format 5 instruction that has written its destination `d` and the flags ends with both as written. -/
theorem retire_of_keepsAllBut {d : Reg} {s u : State} (h : d = Reg.pc ∨ nextInRange s)
    (hpc : d ≠ Reg.pc → u.pc = s.pc) (hk : keepsAllBut [d] s u) :
    ∃ t, retire d u = .next t ∧ readReg t d = readReg u d ∧ t.flags = u.flags ∧
      (d ≠ Reg.pc → t.pc = s.pc + 2#16) ∧ keepsAllBut [d] s t := by
  by_cases hd : d = Reg.pc
  · subst hd
    exact ⟨u, rfl, rfl, rfl, fun hne => absurd rfl hne, hk⟩
  · have hu : nextInRange u := by
      obtain ⟨-, -, ⟨-, hparams⟩, -⟩ := hk
      simpa only [nextInRange, hparams, hpc hd] using h.resolve_left hd
    refine ⟨_, (retire_of_ne hd u).trans (advance_of_inRange hu), readReg_withPc_of_ne u _ hd, rfl, fun _ => ?_,
      keepsAllBut_withPc hk _⟩
    rw [withPc_pc, hpc hd]

/-- Settles O17: the sum into any register, and its four flags. -/
theorem add1Result : Obligations.Add1Result := by
  intro rd rs s
  refine ⟨?encoding, fun h => ?result⟩
  case encoding =>
    rw [encode, encodeFormat5_toNat, BitVec.toNat_ofNat]
    omega
  case result =>
    obtain ⟨t, ht, hr, hf, hpc, hk⟩ := retire_of_keepsAllBut
      (u := setNZCV (writeReg s rd _) (addFlags (readReg s rd) (readReg s rs))) h (fun hd => by simp [hd])
      (keepsAllBut_withFlags (keepsAllBut_writeReg s rd _) _)
    refine ⟨t, ht, ?_, flagsShowAdd_of_flags_eq hf, hpc, hk⟩
    rw [hr, readReg_setNZCV, readReg_writeReg_self, addFlags_r]

/-- Settles O28: the value into any register, N and Z from it. -/
theorem mov2Result : Obligations.Mov2Result := by
  intro rd rs s
  refine ⟨?encoding, fun h => ?result⟩
  case encoding =>
    rw [encode, encodeFormat5_toNat, BitVec.toNat_ofNat]
    omega
  case result =>
    obtain ⟨t, ht, hr, hf, hpc, hk⟩ := retire_of_keepsAllBut
      (u := setNZ (writeReg s rd (readReg s rs)) (readReg s rs)) h (fun hd => by simp [hd])
      (keepsAllBut_withFlags (keepsAllBut_writeReg s rd _) _)
    refine ⟨t, ht, ?_, flagsShowNZ_of_flags_eq hf, by simp [keepsCV, hf], hpc, hk⟩
    rw [hr, readReg_setNZ, readReg_writeReg_self]

/-- Settles O26: the words with two low registers have their own reason in the decoder; both rows compare. -/
theorem cmp3Result : Obligations.Cmp3Result := by
  refine ⟨fun w hlo hhi => decodeHalfword_eq_error_iff.2 ⟨hlo, hhi⟩, fun i rd rs s hi => ?_⟩
  have henc : encode i = encodeFormat5 1#2 rd rs := by rcases hi with rfl | rfl <;> rfl
  have hexec : exec i s = compare (readReg s rd) (readReg s rs) s := by rcases hi with rfl | rfl <;> rfl
  refine ⟨?encoding, fun h => hexec ▸ compare_of_inRange h _ _⟩
  case encoding =>
    rw [henc, encodeFormat5_toNat, BitVec.toNat_ofNat]
    omega

end Sys2Proof.Machine
end

section
/-! PROOF. Loads and stores (41_load_store.md, 20_memory.md): at storage, at devices, and where they stop. -/

namespace Sys2Proof.Machine

/-! ### An instruction whose address is in range is its access -/

section
variable {rd rb : LowReg} {imm : BitVec 5} {s : State} {a : Word}

theorem exec_ldr_of_inRange (h : addressInRange s rb (4 * imm.toNat))
    (ha : a = readReg s rb.toReg + BitVec.ofNat 16 (4 * imm.toNat)) :
    exec (.ldr rd rb imm) s = finishLoad rd (loadHalfAligned s a) := by
  rw [exec, execLdr, halfOffset, effectiveAddress_of_inRange h, ofNat_toNat_add, ← ha]

theorem exec_ldrb_of_inRange (h : addressInRange s rb imm.toNat)
    (ha : a = readReg s rb.toReg + BitVec.ofNat 16 imm.toNat) :
    exec (.ldrb rd rb imm) s = finishLoad rd (loadByteZeroExtended s a) := by
  rw [exec, execLdrb, byteOffset, effectiveAddress_of_inRange h, ofNat_toNat_add, ← ha]

theorem exec_str_of_inRange (h : addressInRange s rb (4 * imm.toNat))
    (ha : a = readReg s rb.toReg + BitVec.ofNat 16 (4 * imm.toNat)) :
    exec (.str rd rb imm) s = finishStore (storeHalfAligned s a (readReg s rd.toReg)) := by
  rw [exec, execStr, halfOffset, effectiveAddress_of_inRange h, ofNat_toNat_add, ← ha, readLow_def]

theorem exec_strb_of_inRange (h : addressInRange s rb imm.toNat)
    (ha : a = readReg s rb.toReg + BitVec.ofNat 16 imm.toNat) :
    exec (.strb rd rb imm) s = finishStore (storeByte s a ((readReg s rd.toReg).extractLsb' 0 8)) := by
  rw [exec, execStrb, byteOffset, effectiveAddress_of_inRange h, ofNat_toNat_add, ← ha, readLow_def]

end

/-! ### Accesses at an unaligned address -/

section
variable {s : State} {a : Word}

theorem isWordAligned_of_ne (h : a.toNat % 4 ≠ 0) : isWordAligned a = false := by
  rw [← Bool.not_eq_true, isWordAligned_iff]
  exact h

theorem loadHalfAligned_of_fault (h : a.toNat % 4 ≠ 0) (hp : s.params.unalignedPolicy = .fault) :
    loadHalfAligned s a = .error .unalignedHalfword := by
  simp [loadHalfAligned, isWordAligned_of_ne h, hp]

theorem storeHalfAligned_of_fault (h : a.toNat % 4 ≠ 0) (hp : s.params.unalignedPolicy = .fault) (v : Word) :
    storeHalfAligned s a v = .error .unalignedHalfword := by
  simp [storeHalfAligned, isWordAligned_of_ne h, hp]

theorem loadHalfAligned_of_arbitrary (h : a.toNat % 4 ≠ 0) (hp : s.params.unalignedPolicy = .arbitrary) :
    loadHalfAligned s a = if halfExists s a then .ok (Config.freeHalf s.draws, s.withDraws (s.draws + 1))
      else .error .unpopulatedAddress := by
  simp [loadHalfAligned, isWordAligned_of_ne h, hp]

theorem storeHalfAligned_of_arbitrary (h : a.toNat % 4 ≠ 0) (hp : s.params.unalignedPolicy = .arbitrary) (v : Word) :
    storeHalfAligned s a v = storeHalf (s.withDraws (s.draws + 1)) a (Config.freeHalf s.draws) := by
  simp [storeHalfAligned, isWordAligned_of_ne h, hp]

/-! ### Accesses that stop -/

theorem loadByteZeroExtended_of_hole (hio : isIO s a = false) (hp : isPopulated s a = false) :
    loadByteZeroExtended s a = .error .unpopulatedAddress := by
  simp [loadByteZeroExtended, loadByte, hio, hp]

theorem storeByte_of_hole (hio : isIO s a = false) (hp : isPopulated s a = false) (v : Byte) :
    storeByte s a v = .error .unpopulatedAddress := by
  simp [storeByte, hio, hp]

theorem isIOHalf_of_not_io (hlo : isIO s a = false) (hhi : isIO s (a + 1#16) = false) : isIOHalf s a = false := by
  simp [isIOHalf, nextByte, hlo, hhi]

theorem not_populated_of_hole (hp : isPopulated s a = false ∨ isPopulated s (a + 1#16) = false) :
    (isPopulated s a && isPopulated s (nextByte a)) = false :=
  Bool.and_eq_false_iff.2 hp

theorem loadHalf_of_hole (hlo : isIO s a = false) (hhi : isIO s (a + 1#16) = false)
    (hp : isPopulated s a = false ∨ isPopulated s (a + 1#16) = false) : loadHalf s a = .error .unpopulatedAddress := by
  simp [loadHalf, isIOHalf_of_not_io hlo hhi, not_populated_of_hole hp]

theorem storeHalf_of_hole (hlo : isIO s a = false) (hhi : isIO s (a + 1#16) = false)
    (hp : isPopulated s a = false ∨ isPopulated s (a + 1#16) = false) (v : Word) :
    storeHalf s a v = .error .unpopulatedAddress := by
  simp [storeHalf, isIOHalf_of_not_io hlo hhi, not_populated_of_hole hp]

theorem halfExists_of_hole (hlo : isIO s a = false) (hhi : isIO s (a + 1#16) = false)
    (hp : isPopulated s a = false ∨ isPopulated s (a + 1#16) = false) : halfExists s a = false := by
  rw [halfExists, isIOHalf_of_not_io hlo hhi, not_populated_of_hole hp, Bool.or_false]

theorem loadByteZeroExtended_of_unwritten (h : isStorageByte s a) (hm : memRead s.mem a.toNat = none) :
    loadByteZeroExtended s a = .error .unwrittenMemory := by
  simp [loadByteZeroExtended, loadByte, h.1, h.2, hm]

theorem loadHalf_of_unwritten (h : isStorageHalf s a)
    (hm : memRead s.mem a.toNat = none ∨ memRead s.mem (a + 1#16).toNat = none) :
    loadHalf s a = .error .unwrittenMemory := by
  obtain ⟨h1, h2, h3, h4⟩ := h
  simp only [loadHalf, isIOHalf_of_not_io h1 h2, nextByte, h3, h4, Bool.and_self, if_true, Bool.false_eq_true, if_false]
  split
  · next lo hi hlo hhi => rw [hlo, hhi] at hm; simp at hm
  · rfl

end

/-- An address divisible by 4 is not the last of the address space. -/
theorem next_toNat_of_aligned {a : Word} (h : a.toNat % 4 = 0) : (a + 1#16).toNat = a.toNat + 1 :=
  next_toNat_of_even (by omega)

/-- Settles O36: the address is in range and unaligned, so the access is what stops. -/
theorem unalignedAccessFaults : Obligations.UnalignedAccessFaults := by
  intro rd rb imm s hp haddr hal
  rw [exec_ldr_of_inRange haddr rfl, exec_str_of_inRange haddr rfl, loadHalfAligned_of_fault hal hp,
    storeHalfAligned_of_fault hal hp]
  exact ⟨rfl, rfl⟩

/-- Settles O41: each of the four accesses finds a hole. -/
theorem unpopulatedAccessFaults : Obligations.UnpopulatedAccessFaults := by
  intro rd rb imm s a
  refine ⟨fun haddr ha hio hp => ?byte, fun haddr ha hal hlo hhi hp => ?half⟩
  case byte =>
    rw [exec_ldrb_of_inRange haddr ha, exec_strb_of_inRange haddr ha, loadByteZeroExtended_of_hole hio hp,
      storeByte_of_hole hio hp]
    exact ⟨rfl, rfl⟩
  case half =>
    rw [exec_ldr_of_inRange haddr ha, exec_str_of_inRange haddr ha]
    by_cases h4 : a.toNat % 4 = 0
    · rw [loadHalfAligned_of_aligned h4, storeHalfAligned_of_aligned _ h4, loadHalf_of_hole hlo hhi hp,
        storeHalf_of_hole hlo hhi hp]
      exact ⟨rfl, rfl⟩
    · have harb := hal.resolve_left h4
      rw [loadHalfAligned_of_arbitrary h4 harb, storeHalfAligned_of_arbitrary h4 harb, halfExists_of_hole hlo hhi hp,
        storeHalf_of_hole (s := s.withDraws (s.draws + 1)) hlo hhi hp]
      exact ⟨rfl, rfl⟩

/-- Settles O42: the access reaches storage and finds no value. -/
theorem unwrittenLoadFaults : Obligations.UnwrittenLoadFaults := by
  intro rd rb imm s a
  refine ⟨fun haddr ha hs hm => ?byte, fun haddr ha h4 hs hm => ?half⟩
  case byte =>
    rw [exec_ldrb_of_inRange haddr ha, loadByteZeroExtended_of_unwritten hs hm]
    rfl
  case half =>
    rw [← next_toNat_of_aligned h4] at hm
    rw [exec_ldr_of_inRange haddr ha, loadHalfAligned_of_aligned h4, loadHalf_of_unwritten hs hm]
    rfl

/-! ### Loads that complete -/

/-- Settles O32: an aligned access to storage with values. -/
theorem ldrResult : Obligations.LdrResult := by
  intro rd rb imm s a lo hi
  refine ⟨?encoding, fun haddr hnext ha h4 hs hlo hhi => ?result⟩
  case encoding =>
    simp only [encode, encodeFormat9_toNat, BitVec.toNat_ofNat]
    omega
  case result =>
    rw [← next_toNat_of_aligned h4] at hhi
    rw [exec_ldr_of_inRange haddr ha, loadHalfAligned_of_aligned h4, loadHalf_of_storage hs hlo hhi]
    exact finishLoad_of_inRange hnext rd _

/-- A load whose access draws a free value: the value into the destination, and nothing else but the counter. -/
theorem finishLoad_of_draw {s : State} (h : nextInRange s) (rd : LowReg) (v : Word) :
    ∃ t, finishLoad rd (.ok (v, s.withDraws (s.draws + 1))) = .next t ∧ readReg t rd.toReg = v ∧
      t.draws = s.draws + 1 ∧ t.flags = s.flags ∧ t.pc = s.pc + 2#16 ∧ keepsRegsExcept [rd.toReg] s t ∧
      keepsMemory s t ∧ keepsFixed s t ∧ t.halted = s.halted := by
  obtain ⟨t, ht, hr, hf, hpc, hregs, hmem, hfixed, hh, hd⟩ :=
    finishLoad_of_inRange (s := s.withDraws (s.draws + 1)) h rd v
  exact ⟨t, ht, hr, hd, hf, hpc, hregs, hmem, hfixed, hh⟩

theorem halfExists_of_storage {s : State} {a : Word} (h : isStorageHalf s a) : halfExists s a = true := by
  obtain ⟨-, -, h3, h4⟩ := h
  simp [halfExists, nextByte, h3, h4]

theorem halfExists_of_io {s : State} {a : Word} (h : isIO s a = true ∨ isIO s (a + 1#16) = true) :
    halfExists s a = true := by
  simp [halfExists, isIOHalf, nextByte, h]

/-- Settles O37: under `arbitrary` the access draws a free value. -/
theorem unalignedLdrLoadsFreeValue : Obligations.UnalignedLdrLoadsFreeValue := by
  intro rd rb imm s a harb haddr hnext ha hal hs
  rw [exec_ldr_of_inRange haddr ha, loadHalfAligned_of_arbitrary hal harb, if_pos (halfExists_of_storage hs)]
  exact finishLoad_of_draw hnext rd _

/-- Settles O39: a device answers a free value, and so does an unaligned access under `arbitrary`. -/
theorem loadsFromIoAreFree : Obligations.LoadsFromIoAreFree := by
  intro rd rb imm s a hnext
  refine ⟨fun haddr ha hio => ?byte, fun haddr ha hal hio => ?half⟩
  case byte =>
    obtain ⟨t, ht, hr, hrest⟩ := finishLoad_of_draw hnext rd ((Config.freeByte s.draws).setWidth 16)
    refine ⟨t, ?_, ?_, hrest⟩
    · rw [exec_ldrb_of_inRange haddr ha, loadByteZeroExtended, loadByte_of_io hio]
      exact ht
    · rw [hr, BitVec.toNat_setWidth_of_le (by decide)]
  case half =>
    have haccess : loadHalfAligned s a = .ok (Config.freeHalf s.draws, s.withDraws (s.draws + 1)) := by
      by_cases h4 : a.toNat % 4 = 0
      · rw [loadHalfAligned_of_aligned h4, loadHalf_of_io hio]
      · rw [loadHalfAligned_of_arbitrary h4 (hal.resolve_left h4), if_pos (halfExists_of_io hio)]
    rw [exec_ldr_of_inRange haddr ha, haccess]
    exact finishLoad_of_draw hnext rd _

/-! ### Stores that complete -/

/-- The two bytes of a halfword put into memory, as `storeHalf` puts them. -/
def putHalf (s : State) (a v : Word) : State := putByte (putByte s (a + 1#16) (v.extractLsb' 8 8)) a (v.extractLsb' 0 8)

theorem storeHalf_eq_putHalf {s : State} {a : Word} (v : Word) (h : isStorageHalf s a) :
    storeHalf s a v = .ok (putHalf s a v) :=
  storeHalf_of_storage v h

theorem next_toNat_ne (a : Word) : (a + 1#16).toNat ≠ a.toNat := by
  have := a.isLt
  rw [BitVec.toNat_add, BitVec.toNat_ofNat]
  omega

section
variable (s : State) (a v : Word)

theorem memRead_putHalf_low : memRead (putHalf s a v).mem a.toNat = some (v.extractLsb' 0 8) :=
  memRead_memWrite_self _ _ _

theorem memRead_putHalf_high : memRead (putHalf s a v).mem (a + 1#16).toNat = some (v.extractLsb' 8 8) :=
  (memRead_memWrite_of_ne _ _ (next_toNat_ne a)).trans (memRead_memWrite_self _ _ _)

theorem memRead_putHalf_of_ne {x : Nat} (hlo : x ≠ a.toNat) (hhi : x ≠ (a + 1#16).toNat) :
    memRead (putHalf s a v).mem x = memRead s.mem x :=
  (memRead_memWrite_of_ne _ _ hlo).trans (memRead_memWrite_of_ne _ _ hhi)

theorem mem_stored_putHalf {x : Nat} :
    x ∈ (putHalf s a v).stored ↔ x ∈ s.stored ∨ x = a.toNat ∨ x = (a + 1#16).toNat := by
  simp only [putHalf, putByte_stored, mem_addAddress]
  tauto

end

theorem finishStore_of_inRange {u : State} (h : nextInRange u) :
    finishStore (.ok u) = .next (u.withPc (u.pc + 2#16)) :=
  advance_of_inRange h

/-- Settles O34: both bytes of Rd put into memory and marked. -/
theorem strResult : Obligations.StrResult := by
  intro rd rb imm s a
  refine ⟨?encoding, fun haddr hnext ha h4 hs => ?result⟩
  case encoding =>
    simp only [encode, encodeFormat9_toNat, BitVec.toNat_ofNat]
    omega
  case result =>
    have h : exec (.str rd rb imm) s = .next ((putHalf s a (readReg s rd.toReg)).withPc (s.pc + 2#16)) := by
      rw [exec_str_of_inRange haddr ha, storeHalfAligned_of_aligned _ h4, storeHalf_eq_putHalf _ hs]
      exact finishStore_of_inRange (u := putHalf s a _) hnext
    obtain ⟨hregs, hf, hh, hfixed, hpc⟩ := frame_of_isStore rfl h
    rw [← next_toNat_of_aligned h4]
    exact ⟨_, h, memRead_putHalf_low _ _ _, memRead_putHalf_high _ _ _, fun x => memRead_putHalf_of_ne _ _ _,
      fun x => mem_stored_putHalf _ _ _, rfl, hf, hpc, hregs, hfixed, hh, rfl⟩

/-- Settles O35: the low byte of Rd put into memory and marked. -/
theorem strbResult : Obligations.StrbResult := by
  intro rd rb imm s a
  refine ⟨?encoding, fun haddr hnext ha hs => ?result⟩
  case encoding =>
    simp only [encode, encodeFormat9_toNat, BitVec.toNat_ofNat]
    omega
  case result =>
    have h : exec (.strb rd rb imm) s =
        .next ((putByte s a ((readReg s rd.toReg).extractLsb' 0 8)).withPc (s.pc + 2#16)) := by
      rw [exec_strb_of_inRange haddr ha, storeByte_of_storage _ hs]
      exact finishStore_of_inRange (u := putByte s a _) hnext
    obtain ⟨hregs, hf, hh, hfixed, hpc⟩ := frame_of_isStore rfl h
    exact ⟨_, h, memRead_memWrite_self _ _ _, fun x => memRead_memWrite_of_ne _ _,
      fun x => mem_addAddress.trans or_comm, rfl, hf, hpc, hregs, hfixed, hh, rfl⟩

/-- Settles O38: under `arbitrary` the access puts the bytes of a free value into memory. -/
theorem unalignedStrStoresFreeValue : Obligations.UnalignedStrStoresFreeValue := by
  intro rd rb imm s a harb haddr hnext ha hal hs
  have h : exec (.str rd rb imm) s =
      .next ((putHalf (s.withDraws (s.draws + 1)) a (Config.freeHalf s.draws)).withPc (s.pc + 2#16)) := by
    rw [exec_str_of_inRange haddr ha, storeHalfAligned_of_arbitrary hal harb,
      storeHalf_eq_putHalf (s := s.withDraws (s.draws + 1)) _ hs]
    exact finishStore_of_inRange (u := putHalf (s.withDraws (s.draws + 1)) a _) hnext
  obtain ⟨hregs, hf, hh, hfixed, hpc⟩ := frame_of_isStore rfl h
  exact ⟨_, h, memRead_putHalf_low _ _ _, memRead_putHalf_high _ _ _, fun x => memRead_putHalf_of_ne _ _ _, rfl, rfl,
    hf, hpc, hregs, hfixed, hh⟩

/-- A store whose access sends one event: the event appended, and nothing else but the PC. -/
theorem finishStore_of_event {s : State} (h : nextInRange s) (e : OutputEvent) :
    ∃ t, finishStore (.ok (s.withOutputs (s.outputs ++ [e]))) = .next t ∧ t.outputs = s.outputs ++ [e] ∧
      t.mem = s.mem ∧ t.stored = s.stored ∧ t.flags = s.flags ∧ t.pc = s.pc + 2#16 ∧ keepsRegsExcept [] s t ∧
      keepsFixed s t ∧ t.halted = s.halted ∧ t.draws = s.draws :=
  ⟨_, finishStore_of_inRange (u := s.withOutputs _) h, rfl, rfl, rfl, rfl, rfl,
    fun _ _ hpc => readReg_withPc_of_ne _ _ hpc, ⟨rfl, rfl⟩, rfl, rfl⟩

/-- Settles O40: a device gets one event, and under `arbitrary` an unaligned STR sends a free value. -/
theorem storesToIoAreEvents : Obligations.StoresToIoAreEvents := by
  intro rd rb imm s a hnext
  refine ⟨fun haddr ha hio => ?byte, fun haddr ha hio => ⟨fun h4 => ?aligned, fun h4 harb => ?unaligned⟩⟩
  case byte =>
    rw [exec_strb_of_inRange haddr ha, storeByte_of_io _ hio]
    exact finishStore_of_event hnext _
  case aligned =>
    rw [exec_str_of_inRange haddr ha, storeHalfAligned_of_aligned _ h4, storeHalf_of_io _ hio]
    exact finishStore_of_event hnext _
  case unaligned =>
    rw [exec_str_of_inRange haddr ha, storeHalfAligned_of_arbitrary h4 harb,
      storeHalf_of_io (s := s.withDraws (s.draws + 1)) _ hio]
    exact finishStore_of_event (s := s.withDraws (s.draws + 1)) hnext _

/-! ### What a store leaves in memory -/

section
variable {rd rb : LowReg} {imm : BitVec 5} {s t : State} {a : Word}

theorem memRead_of_storeByte {v : Byte} (h : storeByte s a v = .ok t) {x : Nat} (hx : x ≠ a.toNat) :
    memRead t.mem x = memRead s.mem x := by
  obtain ⟨-, rfl⟩ | ⟨-, rfl⟩ := storeByte_ok h
  · rfl
  · exact memRead_memWrite_of_ne _ _ hx

theorem memRead_of_storeHalf {v : Word} (h : storeHalf s a v = .ok t) {x : Nat} (hlo : x ≠ a.toNat)
    (hhi : x ≠ (a + 1#16).toNat) : memRead t.mem x = memRead s.mem x := by
  obtain ⟨-, rfl⟩ | ⟨-, rfl⟩ := storeHalf_ok h
  · rfl
  · exact memRead_putHalf_of_ne s a v hlo hhi

theorem memRead_of_storeHalfAligned {v : Word} (h : storeHalfAligned s a v = .ok t) {x : Nat} (hlo : x ≠ a.toNat)
    (hhi : x ≠ (a + 1#16).toNat) : memRead t.mem x = memRead s.mem x := by
  obtain ⟨-, h⟩ | ⟨-, -, h⟩ := storeHalfAligned_ok h
  · exact memRead_of_storeHalf h hlo hhi
  · exact (memRead_of_storeHalf h hlo hhi :)

end

/-- Settles O44: the access writes at its own bytes, and the instruction writes nothing else. -/
theorem storeFrame : Obligations.StoreFrame := by
  intro rd rb imm s t a
  refine ⟨fun h ha => ⟨fun x hlo hhi => ?str, frame_of_isStore rfl h⟩,
    fun h ha => ⟨fun x hx => ?strb, frame_of_isStore rfl h⟩⟩
  case str =>
    obtain ⟨a', u, ha', hu, -, rfl⟩ := exec_str_next h
    cases ha.symm.trans ha'
    exact memRead_of_storeHalfAligned hu hlo hhi
  case strb =>
    obtain ⟨a', u, ha', hu, -, rfl⟩ := exec_strb_next h
    cases ha.symm.trans ha'
    exact memRead_of_storeByte hu hx

/-! ### What is stored is loaded -/

section
variable {rd rb : LowReg} {imm : BitVec 5} {s t : State} {a : Word}

theorem exec_strb_at_storage (h : exec (.strb rd rb imm) s = .next t)
    (ha : effectiveAddress s rb (byteOffset imm) = .ok a) (hs : isStorageByte s a) :
    t = (putByte s a ((readReg s rd.toReg).extractLsb' 0 8)).withPc (s.pc + 2#16) := by
  obtain ⟨a', u, ha', hu, -, rfl⟩ := exec_strb_next h
  cases ha.symm.trans ha'
  cases (storeByte_of_storage _ hs).symm.trans hu
  rfl

theorem exec_str_at_storage (h : exec (.str rd rb imm) s = .next t)
    (ha : effectiveAddress s rb (halfOffset imm) = .ok a) (h4 : a.toNat % 4 = 0) (hs : isStorageHalf s a) :
    t = (putHalf s a (readReg s rd.toReg)).withPc (s.pc + 2#16) := by
  obtain ⟨a', u, ha', hu, -, rfl⟩ := exec_str_next h
  cases ha.symm.trans ha'
  rw [storeHalfAligned_of_aligned _ h4, storeHalf_eq_putHalf _ hs] at hu
  cases hu
  rfl

theorem exec_ldr_at_storage {lo hi : Byte} (h : exec (.ldr rd rb imm) s = .next t)
    (ha : effectiveAddress s rb (halfOffset imm) = .ok a) (h4 : a.toNat % 4 = 0) (hs : isStorageHalf s a)
    (hlo : memRead s.mem a.toNat = some lo) (hhi : memRead s.mem (a + 1#16).toNat = some hi) :
    readReg t rd.toReg = hi ++ lo := by
  obtain ⟨a', v, u, ha', hu, -, rfl⟩ := exec_ldr_next h
  cases ha.symm.trans ha'
  rw [loadHalfAligned_of_aligned h4, loadHalf_of_storage hs hlo hhi] at hu
  cases hu
  rw [readReg_withPc_of_ne _ _ (toReg_ne_pc rd), readReg_writeReg_self]

theorem exec_ldrb_at_storage {b : Byte} (h : exec (.ldrb rd rb imm) s = .next t)
    (ha : effectiveAddress s rb (byteOffset imm) = .ok a) (hs : isStorageByte s a)
    (hm : memRead s.mem a.toNat = some b) : (readReg t rd.toReg).toNat = b.toNat := by
  obtain ⟨a', b', u, ha', hu, -, rfl⟩ := exec_ldrb_next h
  cases ha.symm.trans ha'
  rw [loadByte_of_storage hs hm] at hu
  cases hu
  rw [readReg_withPc_of_ne _ _ (toReg_ne_pc rd), readReg_writeReg_self, BitVec.toNat_setWidth_of_le (by decide)]

/-- A store leaves the address that a base register and an offset give. -/
theorem effectiveAddress_of_isStore {i : Instr} (hi : isStore i = true) (h : exec i s = .next t) (rb : LowReg)
    (n : Nat) : effectiveAddress t rb n = effectiveAddress s rb n := by
  obtain ⟨hregs, -, -, ⟨-, hparams⟩, -⟩ := frame_of_isStore hi h
  exact effectiveAddress_congr n hparams (hregs _ List.not_mem_nil (toReg_ne_pc rb))

end

/-- Settles O45: the loads read the bytes that the store has put in place. -/
theorem storedHalfwordIsLoaded : Obligations.StoredHalfwordIsLoaded := by
  intro rd rb q imm k s t u a h ha h4 hs
  have haddr := effectiveAddress_of_isStore rfl h rb
  obtain rfl := exec_str_at_storage h ha h4 hs
  have hlo := memRead_putHalf_low s a (readReg s rd.toReg)
  have hhi := memRead_putHalf_high s a (readReg s rd.toReg)
  obtain ⟨hio, hio', hp, hp'⟩ := id hs
  refine ⟨fun hu => ?half, fun hu => ⟨fun hk => ?low, fun hk => ?high⟩⟩
  case half =>
    rw [exec_ldr_at_storage hu ((haddr _).trans ha) h4 hs hlo hhi]
    exact halfwordOf_bytes _
  case low =>
    rw [exec_ldrb_at_storage hu ((haddr _).trans hk) ⟨hio, hp⟩ hlo]
    simp
  case high =>
    have := (readReg s rd.toReg).isLt
    rw [exec_ldrb_at_storage hu ((haddr _).trans hk) ⟨hio', hp'⟩ hhi, BitVec.extractLsb'_toNat,
      Nat.shiftRight_eq_div_pow]
    omega

/-- Settles O46: the second store leaves the first byte in place. -/
theorem storedBytesAreLoadedAsHalfword : Obligations.StoredBytesAreLoadedAsHalfword := by
  intro r1 r2 rb q i1 i2 imm s t u v a ht hu hv ha1 ha2 ha h4 hs
  have haddr1 := effectiveAddress_of_isStore rfl ht rb
  have haddr2 := effectiveAddress_of_isStore rfl hu rb
  obtain ⟨hregs, -⟩ := frame_of_isStore rfl ht
  have hr2 : readReg t r2.toReg = readReg s r2.toReg := hregs _ List.not_mem_nil (toReg_ne_pc r2)
  obtain ⟨hio, hio', hp, hp'⟩ := id hs
  obtain rfl := exec_strb_at_storage ht ha1 ⟨hio, hp⟩
  obtain rfl := exec_strb_at_storage hu ((haddr1 _).trans ha2) ⟨hio', hp'⟩
  rw [exec_ldr_at_storage hv ((haddr2 _).trans ((haddr1 _).trans ha)) h4 hs
    ((memRead_memWrite_of_ne _ _ (next_toNat_ne a).symm).trans (memRead_memWrite_self _ _ _))
    (memRead_memWrite_self _ _ _), hr2, toNat_append_eq]
  simp

/-! ### Stores into code -/

section
variable {rd rb : LowReg} {imm : BitVec 5} {s t : State} {a : Word}

theorem storeHalf_marks {v : Word} (h : storeHalf s a v = .ok t) (hs : isStorageHalf s a) :
    a.toNat ∈ t.stored ∧ (a + 1#16).toNat ∈ t.stored := by
  cases (storeHalf_eq_putHalf v hs).symm.trans h
  simp [mem_stored_putHalf]

/-- STR marks both its bytes, aligned or not. -/
theorem exec_str_marks (h : exec (.str rd rb imm) s = .next t) (ha : effectiveAddress s rb (halfOffset imm) = .ok a)
    (hs : isStorageHalf s a) : a.toNat ∈ t.stored ∧ (a + 1#16).toNat ∈ t.stored := by
  obtain ⟨a', u, ha', hu, -, rfl⟩ := exec_str_next h
  cases ha.symm.trans ha'
  obtain ⟨-, hu⟩ | ⟨-, -, hu⟩ := storeHalfAligned_ok hu
  · exact (storeHalf_marks hu hs :)
  · exact (storeHalf_marks hu hs :)

theorem exec_strb_marks (h : exec (.strb rd rb imm) s = .next t) (ha : effectiveAddress s rb (byteOffset imm) = .ok a)
    (hs : isStorageByte s a) : a.toNat ∈ t.stored := by
  rw [exec_strb_at_storage h ha hs]
  exact mem_addAddress.2 (.inl rfl)

/-- After a store, a step at storage one of whose bytes is marked stops. -/
theorem step_after_isStore {i : Instr} {p : Word} (hi : isStore i = true) (h : exec i s = .next t)
    (hrun : s.halted = false) (hfetch : s.params.fetchSeesStores = false) (heven : p.toNat % 2 = 0)
    (hs : isStorageHalf s p) (hlo : memRead t.mem p.toNat ≠ none) (hhi : memRead t.mem (p.toNat + 1) ≠ none)
    (hm : p.toNat ∈ t.stored ∨ (p + 1#16).toNat ∈ t.stored) : step (t.withPc p) = .fault .fetchOfModifiedCode := by
  obtain ⟨-, -, hh, ⟨-, hparams⟩, -⟩ := frame_of_isStore hi h
  refine step_of_modified (s := t.withPc p) (hh.trans hrun) ?_ heven ?_ hlo hhi hm
  · rw [withPc_params, hparams, hfetch]
  · have hio (b : Word) : isIO (t.withPc p) b = isIO s b := isIO_congr b hparams
    have hp (b : Word) : isPopulated (t.withPc p) b = isPopulated s b := isPopulated_congr b hparams
    simpa only [isStorageHalf, hio, hp, withPc_pc] using hs

end

/-- Settles O13: a byte that the store has marked is one of the halfword's two. -/
theorem storeIntoCodeStopsFetch : Obligations.StoreIntoCodeStopsFetch := by
  intro rd rb imm s t a p hrun hfetch heven hs hlo hhi
  refine ⟨fun h ha hsa hap => ?strb, fun h ha hsa hap => ?str⟩
  case strb =>
    refine step_after_isStore rfl h hrun hfetch heven hs hlo hhi ?_
    have hm := exec_strb_marks h ha hsa
    obtain rfl | rfl := hap
    · exact .inl hm
    · exact .inr hm
  case str =>
    refine step_after_isStore rfl h hrun hfetch heven hs hlo hhi ?_
    obtain ⟨hm, hm'⟩ := exec_str_marks h ha hsa
    obtain rfl | rfl | rfl := hap
    · exact .inl hm
    · exact .inr hm
    · exact .inl hm'

end Sys2Proof.Machine
end

section
/-! PROOF. Fetch (20_memory.md rules R55, R65 and R73), branches (42_branch.md) and the addresses that leave the address
space (20_memory.md rule R62). -/

namespace Sys2Proof.Machine

/-! ### Fetch -/

/-- Settles O11: the fetch answers the two bytes, and the step executes what they decode to. -/
theorem stepRunsDecodedInstruction : Obligations.StepRunsDecodedInstruction := by
  intro s lo hi i hrun heven hs hlo hhi hmod hdec
  have hcond : (!s.params.fetchSeesStores && isModifiedCode s s.pc) = false := by
    obtain hsees | ⟨h1, h2⟩ := hmod
    · rw [hsees, Bool.not_true, Bool.false_and]
    · simp [isModifiedCode, nextByte, next_toNat_of_even heven, h1, h2]
  have hfetch : fetch s = .ok (hi ++ lo) := by
    rw [fetch_of_storage heven hs hlo hhi, hcond, if_neg Bool.false_ne_true]
  refine ⟨?_, step_of_fetch hrun hfetch hdec⟩
  simp only [decodeBytes, halfwordOf, hdec]

section
variable {s : State}

theorem step_of_fetch_error {f : Fault} (hrun : s.halted = false) (h : fetch s = .error f) : step s = .fault f := by
  simp [step, hrun, h]

theorem fetch_of_io (heven : s.pc.toNat % 2 = 0) (hio : isIO s s.pc = true ∨ isIO s (s.pc + 1#16) = true) :
    fetch s = .error .fetchFromIO := by
  have h : isIOHalf s s.pc = true := by simpa [isIOHalf, nextByte] using hio
  simp only [fetch, bit_zero_of_even heven, h]
  rfl

theorem fetch_of_hole (heven : s.pc.toNat % 2 = 0) (hlo : isIO s s.pc = false) (hhi : isIO s (s.pc + 1#16) = false)
    (hp : isPopulated s s.pc = false ∨ isPopulated s (s.pc + 1#16) = false) :
    fetch s = .error .unpopulatedAddress := by
  simp only [fetch, bit_zero_of_even heven, isIOHalf_of_not_io hlo hhi, not_populated_of_hole hp]
  rfl

theorem fetch_of_unwritten (heven : s.pc.toNat % 2 = 0) (hs : isStorageHalf s s.pc)
    (hm : memRead s.mem s.pc.toNat = none ∨ memRead s.mem (s.pc + 1#16).toNat = none) :
    fetch s = .error .unwrittenMemory := by
  obtain ⟨h1, h2, h3, h4⟩ := hs
  simp only [fetch, bit_zero_of_even heven, isIOHalf_of_not_io h1 h2, nextByte, h3, h4, Bool.and_self, if_true,
    Bool.false_eq_true, if_false]
  split
  · next lo hi hlo hhi => rw [hlo, hhi] at hm; simp at hm
  · rfl

end

/-- Settles O12: the fetch's checks one after the other. -/
theorem fetchFaultsInOrder : Obligations.FetchFaultsInOrder := by
  intro s hrun
  refine ⟨fun hodd => ?odd, fun he hio => ?io, fun he hlo hhi hp => ?hole, fun he hs hm => ?unwritten,
    fun he hs hlo hhi hsees hm => ?modified⟩
  case odd => exact step_of_fetch_error hrun (fetch_of_odd hodd)
  case io => exact step_of_fetch_error hrun (fetch_of_io he hio)
  case hole => exact step_of_fetch_error hrun (fetch_of_hole he hlo hhi hp)
  case unwritten =>
    rw [← next_toNat_of_even he] at hm
    exact step_of_fetch_error hrun (fetch_of_unwritten he hs hm)
  case modified =>
    rw [← next_toNat_of_even he] at hm
    exact step_of_modified hrun hsees he hs hlo hhi hm

/-! ### Branches -/

/-- Every branch is Format 16 with its condition's number. -/
theorem encode_of_branch {i : Instr} {c : Cond} {off : BitVec 8} (h : branchOf i = some (c, off)) :
    (encode i).toNat = 0xD000 + 256 * conditionNumber c + off.toNat := by
  have henc : encode i = encodeFormat16 (BitVec.ofNat 4 (conditionNumber c)) off := by
    cases i <;> cases h <;> rfl
  have hlt : conditionNumber c < 16 := by cases c <;> decide
  rw [henc, encodeFormat16_toNat, BitVec.toNat_ofNat]
  omega

theorem target_toNat (pc : Word) (off : BitVec 8) :
    ((pc + branchOffset off).toNat : Int) = (pc.toNat + 2 * off.toInt) % 65536 := by
  rw [branchOffset_eq_ofInt, BitVec.toNat_add, BitVec.toNat_ofInt]
  omega

/-- Settles O47: a branch goes to its target or to the next instruction, as the table has it. -/
theorem branchResult : Obligations.BranchResult := by
  refine ⟨fun w hlo hhi => decodeHalfword_eq_error_iff.2 ⟨hlo, hhi⟩, fun i c off s hb => ?_⟩
  refine ⟨encode_of_branch hb, fun hc hr => ⟨s.pc + branchOffset off, ?taken, target_toNat _ _⟩, fun hc hr => ?notTaken⟩
  case taken => rw [exec_of_branch hb, branch_of_conditionTable hc, branchBy_of_inRange hr]
  case notTaken => rw [exec_of_branch hb, branch_of_not_conditionTable hc, advance_of_inRange hr]

/-- Settles O49: the target is the branch itself, so the step answers the state itself. -/
theorem branchToItselfRunsForever : Obligations.BranchToItselfRunsForever := by
  intro k s w i c hrun hw hdec hb hc
  have htarget : s.pc + branchOffset 0#8 = s.pc := BitVec.add_zero s.pc
  have hr : targetInRange s 0#8 := by
    have := s.pc.isLt
    simp only [targetInRange, BitVec.toInt_zero]
    omega
  refine run_of_step_self ?_ k
  rw [step_of_fetch hrun hw hdec, exec_of_branch hb, branch_of_conditionTable hc, branchBy_of_inRange hr, htarget]
  rfl

/-- Settles O43: neither the address nor the target is in range. -/
theorem addressWrapFaults : Obligations.AddressWrapFaults := by
  intro s hstrict
  have hwrap : s.params.wrapPolicy ≠ .wrap := by simp [hstrict]
  refine ⟨fun rd rb imm => ⟨fun hout => ?byte, fun hout => ?half⟩, fun i c off hb hc hout => ?branch⟩
  case byte =>
    have hr : ¬ addressInRange s rb (byteOffset imm) := not_or.2 ⟨hwrap, by simpa [byteOffset] using hout⟩
    simp only [exec, execLdrb, execStrb, effectiveAddress_of_not_inRange hr, and_self]
  case half =>
    have hr : ¬ addressInRange s rb (halfOffset imm) := not_or.2 ⟨hwrap, by simpa [halfOffset] using hout⟩
    simp only [exec, execLdr, execStr, effectiveAddress_of_not_inRange hr, and_self]
  case branch =>
    have hr : ¬ targetInRange s off := not_or.2 ⟨hwrap, by omega⟩
    rw [exec_of_branch hb, branch_of_conditionTable hc, branchBy_of_not_inRange hr]

/-! ### Conditions after a comparison -/

theorem exec_of_comparands {i : Instr} {s : State} {a b : Word} (h : comparands s i = some (a, b)) :
    exec i s = compare a b s := by
  cases i with
  | cmp1 | cmp2 | cmp3H1 | cmp3H2 => cases h; rfl
  | _ => cases h

section
variable {t : State} {a b : Word}

theorem zero_iff_of_flagsShowSub (h : flagsShowSub t a b) : t.flags.z = true ↔ a = b := by
  obtain ⟨⟨-, hz⟩, -⟩ := h
  rw [hz, ← BitVec.toNat_inj, ← BitVec.toNat_inj, BitVec.toNat_sub, BitVec.toNat_ofNat]
  have := a.isLt
  have := b.isLt
  omega

/-- The sign of the difference, corrected by its overflow, is the signed order. -/
theorem less_iff_of_flagsShowSub (h : flagsShowSub t a b) : t.flags.n ≠ t.flags.v ↔ a.toInt < b.toInt := by
  obtain ⟨⟨hn, -⟩, -, hv⟩ := h
  have ha := a.isLt
  have hb := b.isLt
  rw [sign_eq_decide, BitVec.toNat_sub] at hn
  rw [toInt_eq_ite, toInt_eq_ite] at hv ⊢
  have hiff : t.flags.n = t.flags.v ↔ (t.flags.n = true ↔ t.flags.v = true) := Bool.eq_iff_iff
  rw [ne_eq, hiff, hv, hn, decide_eq_true_eq]
  split <;> split <;> omega

end

/-- Settles O48: all ten conditions rest on equality, the unsigned order and the signed order of the two values. -/
theorem conditionsAfterComparison : Obligations.ConditionsAfterComparison := by
  intro i s t a b hab h
  rw [exec_of_comparands hab] at h
  obtain ⟨u, hu, hflags, -⟩ := compare_of_inRange (advance_next h).1 a b
  cases hu.symm.trans h
  have heq := zero_iff_of_flagsShowSub hflags
  have hlt := less_iff_of_flagsShowSub hflags
  obtain ⟨-, hc, -⟩ := hflags
  have hne : t.flags.z = false ↔ a ≠ b := by rw [← Bool.not_eq_true, heq]
  have hcc : t.flags.c = false ↔ a.toNat < b.toNat := by rw [← Bool.not_eq_true, hc, not_le]
  have hge : t.flags.n = t.flags.v ↔ b.toInt ≤ a.toInt := by rw [← not_lt, ← hlt, not_not]
  have hnat : a = b ↔ a.toNat = b.toNat := BitVec.toNat_inj.symm
  have hint : a = b ↔ a.toInt = b.toInt := BitVec.toInt_inj.symm
  simp only [conditionHolds_iff, conditionTable]
  refine ⟨heq, hne, hc, hcc, ?hi, ?ls, hge, hlt, ?gt, ?le⟩
  case hi => rw [hc, hne, ne_eq, hnat]; omega
  case ls => rw [hcc, heq, hnat]; omega
  case gt => rw [hne, hge, ne_eq, hint]; omega
  case le => rw [heq, hlt, hint]; omega

/-! ### The status register -/

/-- Settles O55: each bit lies in one part of the concatenation. -/
theorem statusRegisterLayout : Obligations.StatusRegisterLayout := by
  intro s
  simp only [State.statusRegister, BitVec.getLsbD_append, BitVec.getLsbD_ofBool]
  refine ⟨rfl, rfl, rfl, rfl, BitVec.eq_of_getLsbD_eq fun k hk => ?_⟩
  simp only [BitVec.getLsbD_extractLsb', BitVec.getLsbD_append]
  rw [if_neg (by omega), if_neg (by omega), if_neg (by omega), if_neg (by omega),
    show 4 + k - 1 - 1 - 1 - 1 = k by omega]
  simp [hk]

end Sys2Proof.Machine
end

section
/-! PROOF. Assembler lines (30_encoding.md rules R99 to R102): the assembler against the table of lines, row by row. -/

namespace Sys2Proof.Machine

/-! ### Rows with a limit of their own -/

theorem addPc_eq_some {x : RegName} {n : Nat} {i : Instr} :
    (if n % 4 = 0 then lowWithByte .add2 x (n / 4) else none) = some i ↔
      ∃ (d : LowReg) (f : BitVec 8), regNumber x = d.toReg ∧ n = 4 * f.toNat ∧ i = .add2 d f := by
  rw [Option.ite_none_right_eq_some, lowWithByte_eq_some]
  constructor
  · rintro ⟨hmod, d, f, hd, hf, rfl⟩
    exact ⟨d, f, hd, by omega, rfl⟩
  · rintro ⟨d, f, hd, hn, rfl⟩
    exact ⟨by omega, d, f, hd, by omega, rfl⟩

theorem assembleCmp_of_low (d s : LowReg) : assembleCmp d.toReg s.toReg = .cmp2 d s := by
  simp [assembleCmp]

theorem assembleCmp_of_high {x : Reg} (y : Reg) (h : 8 ≤ x.val) : assembleCmp x y = .cmp3H1 x y := by
  simp [assembleCmp, Nat.not_lt.2 h]

theorem assembleCmp_of_low_high {x y : Reg} (hx : x.val < 8) (hy : 8 ≤ y.val) : assembleCmp x y = .cmp3H2 x y := by
  simp [assembleCmp, hx, Nat.not_lt.2 hy]

theorem eq_toReg_of_lt {x : Reg} (h : x.val < 8) : ∃ d : LowReg, x = d.toReg := ⟨⟨x.val, h⟩, rfl⟩

/-- CMP's three rows by which register is a high one. -/
theorem assembleCmp_eq_iff {x y : Reg} {i : Instr} :
    assembleCmp x y = i ↔ (∃ d s : LowReg, x = d.toReg ∧ y = s.toReg ∧ i = .cmp2 d s) ∨
      (8 ≤ x.val ∧ i = .cmp3H1 x y) ∨ (x.val < 8 ∧ 8 ≤ y.val ∧ i = .cmp3H2 x y) := by
  constructor
  · rintro rfl
    by_cases hx : x.val < 8
    · by_cases hy : y.val < 8
      · obtain ⟨d, rfl⟩ := eq_toReg_of_lt hx
        obtain ⟨s, rfl⟩ := eq_toReg_of_lt hy
        exact .inl ⟨d, s, rfl, rfl, assembleCmp_of_low d s⟩
      · exact .inr (.inr ⟨hx, Nat.not_lt.1 hy, assembleCmp_of_low_high hx (Nat.not_lt.1 hy)⟩)
    · exact .inr (.inl ⟨Nat.not_lt.1 hx, assembleCmp_of_high y (Nat.not_lt.1 hx)⟩)
  · rintro (⟨d, s, rfl, rfl, rfl⟩ | ⟨hx, rfl⟩ | ⟨hx, hy, rfl⟩)
    · exact assembleCmp_of_low d s
    · exact assembleCmp_of_high y hx
    · exact assembleCmp_of_low_high hx hy

theorem branchOf_eq_some_iff {i : Instr} {c : Cond} {off : BitVec 8} :
    branchOf i = some (c, off) ↔ i = branchInstr c off := by
  refine ⟨fun h => ?_, fun h => h ▸ branchOf_branchInstr c off⟩
  cases i <;> cases h <;> rfl

/-- A half distance that fits the field is the signed value of the field. -/
theorem toInt_ofInt_of_fits {x : Int} (hlo : -128 ≤ x) (hhi : x < 128) : (BitVec.ofInt 8 x).toInt = x := by
  rw [BitVec.toInt_ofInt]
  apply Int.bmod_eq_of_le <;> omega

/-- A branch's row: the field is half the distance, and every even distance within the limits has a field. -/
theorem assembleBranch_eq_some {c : Cond} {a target : Word} {i : Instr} :
    assembleBranch c a target = some i ↔
      ∃ off : BitVec 8, branchOf i = some (c, off) ∧ (target.toNat : Int) = (a.toNat : Int) + 2 * off.toInt := by
  simp only [branchOf_eq_some_iff, assembleBranch, Option.ite_none_right_eq_some, Option.some.injEq]
  constructor
  · rintro ⟨⟨heven, hlo, hhi⟩, rfl⟩
    refine ⟨_, rfl, ?_⟩
    rw [toInt_ofInt_of_fits (by omega) (by omega)]
    omega
  · rintro ⟨off, rfl, htarget⟩
    have hlo : -128 ≤ off.toInt := by simpa using off.le_toInt
    have hhi : off.toInt < 128 := by simpa using off.toInt_lt
    have hhalf : ((target.toNat : Int) - a.toNat) / 2 = off.toInt := by omega
    rw [hhalf, BitVec.ofInt_toInt]
    exact ⟨by omega, rfl⟩

/-! ### The table -/

theorem assemble_eq_some_iff (a : Word) (l : AsmLine) (i : Instr) : assemble a l = some i ↔ lineStandsFor a l i := by
  cases l with
  | addReg | movReg | halt => exact Option.some_inj.trans eq_comm
  | addPc => exact addPc_eq_some
  | and | asr | eor | neg | tst => exact lowPair_eq_some
  | b => exact assembleBranch_eq_some
  | cmpImm | movImm => exact lowWithByte_eq_some
  | cmpReg => exact Option.some_inj.trans assembleCmp_eq_iff
  | ldr | str => exact memoryOperand_eq_some (k := 4) (by decide)
  | ldrb | strb => simpa only [assemble, lineStandsFor, Nat.one_mul] using memoryOperand_eq_some (k := 1) (by decide)

theorem wellFormed_of_branch {i : Instr} {p : Cond × BitVec 8} (h : branchOf i = some p) : i.wellFormed = true := by
  cases i with
  | cmp3H1 | cmp3H2 => cases h
  | _ => rfl

theorem wellFormed_of_lineStandsFor {a : Word} {l : AsmLine} {i : Instr} (h : lineStandsFor a l i) :
    i.wellFormed = true := by
  cases l with
  | addReg | movReg | halt => cases h; rfl
  | addPc | cmpImm | movImm => obtain ⟨d, f, -, -, rfl⟩ := h; rfl
  | and | asr | eor | neg | tst => obtain ⟨d, s, -, -, rfl⟩ := h; rfl
  | ldr | ldrb | str | strb => obtain ⟨d, b, f, -, -, -, rfl⟩ := h; rfl
  | b => obtain ⟨off, hb, -⟩ := h; exact wellFormed_of_branch hb
  | cmpReg x y =>
    obtain ⟨d, s, -, -, rfl⟩ | ⟨hx, rfl⟩ | ⟨hx, hy, rfl⟩ := h
    · rfl
    · simpa [Instr.wellFormed] using hx
    · simpa [Instr.wellFormed] using ⟨hx, hy⟩

/-- The address that a branch offset names, where that is an address. -/
theorem target_toNat_of_inRange {a : Word} {off : BitVec 8} (hlo : 0 ≤ (a.toNat : Int) + 2 * off.toInt)
    (hhi : (a.toNat : Int) + 2 * off.toInt < 65536) :
    ((a + branchOffset off).toNat : Int) = (a.toNat : Int) + 2 * off.toInt := by
  rw [target_toNat]
  omega

theorem exists_line {a : Word} {i : Instr} (hwf : i.wellFormed = true)
    (hb : ∀ (c : Cond) (off : BitVec 8), branchOf i = some (c, off) →
      0 ≤ (a.toNat : Int) + 2 * off.toInt ∧ (a.toNat : Int) + 2 * off.toInt < 65536) :
    ∃ l, lineStandsFor a l i := by
  cases i with
  | halt => exact ⟨.halt, rfl⟩
  | mov1 rd imm => exact ⟨.movImm (.r rd.toReg) imm.toNat, rd, imm, rfl, rfl, rfl⟩
  | cmp1 rd imm => exact ⟨.cmpImm (.r rd.toReg) imm.toNat, rd, imm, rfl, rfl, rfl⟩
  | and rd rs => exact ⟨.and (.r rd.toReg) (.r rs.toReg), rd, rs, rfl, rfl, rfl⟩
  | eor rd rs => exact ⟨.eor (.r rd.toReg) (.r rs.toReg), rd, rs, rfl, rfl, rfl⟩
  | asr rd rs => exact ⟨.asr (.r rd.toReg) (.r rs.toReg), rd, rs, rfl, rfl, rfl⟩
  | tst rd rs => exact ⟨.tst (.r rd.toReg) (.r rs.toReg), rd, rs, rfl, rfl, rfl⟩
  | neg rd rs => exact ⟨.neg (.r rd.toReg) (.r rs.toReg), rd, rs, rfl, rfl, rfl⟩
  | cmp2 rd rs => exact ⟨.cmpReg (.r rd.toReg) (.r rs.toReg), .inl ⟨rd, rs, rfl, rfl, rfl⟩⟩
  | add1 rd rs => exact ⟨.addReg (.r rd) (.r rs), rfl⟩
  | cmp3H1 rd rs =>
    have hd : 8 ≤ rd.val := by simpa [Instr.wellFormed] using hwf
    exact ⟨.cmpReg (.r rd) (.r rs), .inr (.inl ⟨hd, rfl⟩)⟩
  | cmp3H2 rd rs =>
    obtain ⟨hd, hs⟩ : rd.val < 8 ∧ 8 ≤ rs.val := by simpa [Instr.wellFormed] using hwf
    exact ⟨.cmpReg (.r rd) (.r rs), .inr (.inr ⟨hd, hs, rfl⟩)⟩
  | mov2 rd rs => exact ⟨.movReg (.r rd) (.r rs), rfl⟩
  | str rd rb imm => exact ⟨.str (.r rd.toReg) (.r rb.toReg) (4 * imm.toNat), rd, rb, imm, rfl, rfl, rfl, rfl⟩
  | ldr rd rb imm => exact ⟨.ldr (.r rd.toReg) (.r rb.toReg) (4 * imm.toNat), rd, rb, imm, rfl, rfl, rfl, rfl⟩
  | strb rd rb imm => exact ⟨.strb (.r rd.toReg) (.r rb.toReg) imm.toNat, rd, rb, imm, rfl, rfl, rfl, rfl⟩
  | ldrb rd rb imm => exact ⟨.ldrb (.r rd.toReg) (.r rb.toReg) imm.toNat, rd, rb, imm, rfl, rfl, rfl, rfl⟩
  | add2 rd imm => exact ⟨.addPc (.r rd.toReg) (4 * imm.toNat), rd, imm, rfl, rfl, rfl⟩
  | beq off | bne off | bcs off | bcc off | bmi off | bpl off | bvs off | bvc off | bhi off | bls off | bge off
  | blt off | bgt off | ble off =>
    obtain ⟨hlo, hhi⟩ := hb _ off rfl
    exact ⟨.b _ (a + branchOffset off), off, rfl, target_toNat_of_inRange hlo hhi⟩

/-- A taken branch goes to the target that its line names, which is in range because it is an address. -/
theorem exec_of_branch_line {c : Cond} {target : Word} {i : Instr} {s : State}
    (h : lineStandsFor s.pc (.b c target) i) (hc : conditionTable c s.flags) :
    exec i s = .next (s.withPc target) := by
  obtain ⟨off, hb, htarget⟩ := h
  have hlt := target.isLt
  have hpc : s.pc + branchOffset off = target := by
    apply BitVec.eq_of_toNat_eq
    have := target_toNat_of_inRange (a := s.pc) (off := off) (by omega) (by omega)
    omega
  rw [exec_of_branch hb, branch_of_conditionTable hc, branchBy_of_inRange (.inr ⟨by omega, by omega⟩), hpc]

/-- Settles O60: the assembler is the table, and the rest follows from the table. -/
theorem assemblerLines : Obligations.AssemblerLines := by
  refine ⟨⟨rfl, rfl, rfl, fun _ => rfl⟩, assemble_eq_some_iff, ?_⟩
  simp only [assemble_eq_some_iff]
  exact ⟨fun _ _ _ => wellFormed_of_lineStandsFor,
    fun _ _ => exists_line, fun _ _ _ _ => exec_of_branch_line⟩

end Sys2Proof.Machine
end
